-- ==== Sys2Proof/Word.lean ====
section
/-! DEFINITION. Word types of the Trailer Codec Unit: bytes, host data, register numbers (R5, R30, R33). -/

namespace Sys2Proof

/-- A byte, 8 bits, value 0 to 255 (R5). -/
abbrev Byte := BitVec 8

/-- The datum of a host transaction and a command word, `W_BUS` = 32 bits (R4, R33, R56). -/
abbrev Word := BitVec 32

/-- A register number, 8 bits (R30). -/
abbrev RegNum := BitVec 8

end Sys2Proof
end

