-- ==== Sys2Proof/Config.lean ====
section
/-! DEFINITION. The constants and parameters of R4, and the one external function, `Mac8` (U15). -/

namespace Sys2Proof

/-- The parameters R4 marks "configuration", so that a claim may be stated for every value of them (R27, D4, D7).
The registers (`Tcu`), every operation on them and what every event does to them take a configuration or its width;
the machine of `exec` and `step`, whose types name none, is the unit at `Config.tcu`. -/
structure Config where
  /-- `RSVD8`: the value `ENC` puts in trailer byte 8 (R4, R53, D7). -/
  rsvd8 : Byte
  /-- `W_IN`: the width of the four integer input registers and of `TLEN` (R4, R10, D4). -/
  wIn : Nat
  /-- `W_IN` is at least 17, so that 65536 can be presented (R4, D4). -/
  wIn_ok : 17 ≤ wIn
deriving DecidableEq, Repr

/-- The unit as the spec sets it: `RSVD8 = 0x00` (R4, R53) and `W_IN = 32` (R4, R10).
UNVERIFIED against the original software, as D7 itself says: unsafe for byte-exact claims about it (log entry 5). -/
abbrev Config.tcu : Config := { rsvd8 := 0x00, wIn := 32, wIn_ok := by decide }

/-- `MAGIC` = `0xCF`, trailer byte 0 (R4, R47). -/
def Config.magic : Byte := 0xCF

/-- `POLY` = `0x1D`, the low eight coefficients of x^8+x^4+x^3+x^2+1 (R4). -/
def Config.poly : Byte := 0x1D

/-- `CRC_INIT` = `0x00`, the CRC register before the first byte (R4, R66). -/
def Config.crcInit : Byte := 0x00

/-- `TRAILER_LEN` = 10, bytes in a trailer (R4, R45). -/
def Config.trailerLen : Nat := 10

/-- `CRC_SPAN` = 9, the bytes the CRC covers, offsets 0 to 8 (R4, R54). -/
def Config.crcSpan : Nat := 9

/-- `TIP_BITS` = 12 (R4). -/
def Config.tipBits : Nat := 12

/-- `EPOCH_BITS` = 8 (R4). -/
def Config.epochBits : Nat := 8

/-- `ROOT_BITS` = 16 (R4). -/
def Config.rootBits : Nat := 16

/-- `W_BUS` = 32, width of host transaction data (R4). -/
def Config.wBus : Nat := 32

/-- `Mac8`: key bytes and message bytes to the first byte of HMAC-SHA256, computed outside the unit (R4, D2).
DESIGN CHOICE: uninterpreted, as U15 asks; no value of it can be proved, safe (log entry 7). -/
opaque Config.mac8 : List Byte → List Byte → Byte

end Sys2Proof
end

