-- ==== Sys2Proof/Syntax.lean ====
section
/-! DEFINITION. The command set, one constructor per row of the command table (R57). -/

namespace Sys2Proof

/-- A command: the unit's only kind of instruction (R8, R57). -/
inductive Instr where
  /-- `CRC.CLR`: start a new CRC (R68). -/
  | crcClr
  /-- `CRC.UPD imm8`: take one byte into the CRC (R69). -/
  | crcUpd (imm8 : Byte)
  /-- `ENC`: validate, pack, checksum (R77). -/
  | enc
  /-- `DEC`: validate and unpack (R87). -/
  | dec
deriving DecidableEq, Repr

end Sys2Proof
end

