-- ==== Sys2Proof/WellFormed.lean ====
section
/-! DEFINITION. Which terms stand for something that can be presented to the unit: every command, and the
assembly lines of R62 and R63 whose numerals fit. -/

namespace Sys2Proof

/-- Every command is well-formed: the only operand a command word carries is `imm8`, and its type is its width
(R22, R29, R69 "every `imm8` 0..255 ... is legal"). -/
def Instr.wellFormed : Instr → Bool
  | .crcClr => true
  | .crcUpd _ => true
  | .enc => true
  | .dec => true

/-- One line of a host program, numerals still unbounded (R62, R63). -/
inductive AsmLine where
  /-- `WR <reg>, <value>`. -/
  | wr (reg value : Nat)
  /-- `RD <reg>`, with the value expected where the line states one. -/
  | rd (reg : Nat) (expected : Option Nat)
  /-- `CRC.CLR`, same as `WR CMD, 0x00000100`. -/
  | crcClr
  /-- `CRC.UPD <byte>`, same as `WR CMD, 0x00000200 | <byte>`. -/
  | crcUpd (byte : Nat)
  /-- `ENC`, same as `WR CMD, 0x00001000`. -/
  | enc
  /-- `DEC`, same as `WR CMD, 0x00002000`. -/
  | dec
  /-- `LDTRL b0 ... bn-1`. -/
  | ldtrl (bytes : List Nat)
  /-- `CRC.BYTES b0 ... bn-1`. -/
  | crcBytes (bytes : List Nat)
  /-- `CRC.OF b0 ... bn-1`. -/
  | crcOf (bytes : List Nat)
  /-- `SETENC e, r, t0, t1, m`. -/
  | setenc (e r t0 t1 m : Nat)
deriving DecidableEq, Repr

/-- A numeral that is a register number (R30). -/
def regNumOk (n : Nat) : Bool := n < 256

/-- A numeral that is a byte (R5). -/
def byteOk (n : Nat) : Bool := n < 256

/-- A numeral that is a 32-bit datum (R33). -/
def datumOk (n : Nat) : Bool := n < 2 ^ Config.wBus

/-- A line whose numerals can be presented (R62, R63). -/
def AsmLine.wellFormed : AsmLine → Bool
  | .wr reg value => regNumOk reg && datumOk value
  | .rd reg none => regNumOk reg
  | .rd reg (some v) => regNumOk reg && datumOk v
  | .crcClr => true
  | .crcUpd byte => byteOk byte
  | .enc => true
  | .dec => true
  | .ldtrl bytes => bytes.all byteOk && datumOk bytes.length
  | .crcBytes bytes => bytes.all byteOk
  | .crcOf bytes => bytes.all byteOk
  | .setenc e r t0 t1 m => datumOk e && datumOk r && datumOk t0 && datumOk t1 && datumOk m

end Sys2Proof
end

