-- ==== Sys2Proof/Decode.lean ====
section
/-! DEFINITION. Decoding a command word, total on 32-bit words, and the encoder (R56 to R60). -/

namespace Sys2Proof

/-- The three ways a word is illegal (R58). The unit does not record which (R96): the names are for statements. -/
inductive Illegal where
  /-- `rsvd` (bits 31:16) is not 0. -/
  | reservedBits
  /-- `opcode` is not one of `0x01`, `0x02`, `0x10`, `0x20`. -/
  | unknownOpcode
  /-- `opcode` is `0x01`, `0x10` or `0x20` and `imm8` is not 0. -/
  | operandNotZero
deriving DecidableEq, Repr

/-- Field `rsvd`, bits 31:16 (R56). -/
def cmdRsvd (w : Word) : BitVec 16 := w.extractLsb' 16 16

/-- Field `opcode`, bits 15:8 (R56). -/
def cmdOpcode (w : Word) : Byte := w.extractLsb' 8 8

/-- Field `imm8`, bits 7:0 (R56). -/
def cmdImm8 (w : Word) : Byte := w.extractLsb' 0 8

/-- A command that takes no operand: `imm8` must be 0 (R56). -/
def noOperand (i : Instr) (imm8 : Byte) : Except Illegal Instr :=
  if imm8 = 0x00 then .ok i else .error .operandNotZero

/-- `decode_cmd` (R60), total on 32-bit words. -/
def decodeCmd (w : Word) : Except Illegal Instr :=
  if cmdRsvd w ≠ 0x0000 then .error .reservedBits
  else if cmdOpcode w = 0x01 then noOperand .crcClr (cmdImm8 w)
  else if cmdOpcode w = 0x02 then .ok (.crcUpd (cmdImm8 w))
  else if cmdOpcode w = 0x10 then noOperand .enc (cmdImm8 w)
  else if cmdOpcode w = 0x20 then noOperand .dec (cmdImm8 w)
  else .error .unknownOpcode

/-- The three fields of format C put together (R56). -/
def cmdWord (opcode imm8 : Byte) : Word := (0x0000 : BitVec 16) ++ opcode ++ imm8

/-- The word of a command (R60, "Encoding is the inverse"; opcodes of R57). -/
def encode : Instr → Word
  | .crcClr => cmdWord 0x01 0x00
  | .crcUpd imm8 => cmdWord 0x02 imm8
  | .enc => cmdWord 0x10 0x00
  | .dec => cmdWord 0x20 0x00

/-- A row of the command table: a word selects it when `word & mask == match` (R57). -/
structure CmdRow where
  mnemonic : String
  pattern : Word
  mask : Word
deriving DecidableEq, Repr

/-- The row of a command (R57). -/
def Instr.row : Instr → CmdRow
  | .crcClr => ⟨"CRC.CLR", 0x00000100, 0xFFFFFFFF⟩
  | .crcUpd _ => ⟨"CRC.UPD", 0x00000200, 0xFFFFFF00⟩
  | .enc => ⟨"ENC", 0x00001000, 0xFFFFFFFF⟩
  | .dec => ⟨"DEC", 0x00002000, 0xFFFFFFFF⟩

/-- The four rows of the command table (R57). -/
def cmdTable : List CmdRow := [Instr.crcClr.row, (Instr.crcUpd 0x00).row, Instr.enc.row, Instr.dec.row]

/-- A word selects a row (R57). -/
def CmdRow.selects (row : CmdRow) (w : Word) : Bool := w &&& row.mask == row.pattern

/-- The command the decoder reads from the word `w`, numbered as the opcode table numbers it.
DEDUCED: a command word is written as one number, so no byte order enters (R30, R35), safe (log entry 8). -/
def decodeTableWord (nbits w : Nat) : Option Instr :=
  match decodeCmd (BitVec.ofNat 32 (w % 2 ^ nbits)) with
  | .ok i => some i
  | .error _ => none

end Sys2Proof
end

