-- ==== Sys2Proof/Machine/State.lean ====
section
/-! DEFINITION. The state of the unit (R10) and of the host's side of the interface (R124), and reset (R26). -/

namespace Sys2Proof.Machine

/-- The status codes, the values of `STATUS.CODE` (R59). Codes `0x7` to `0xF` are never written. -/
inductive Code where
  /-- Success. -/
  | ok
  /-- `RangeError`, raised by `ENC`. -/
  | errRange
  /-- `FormatError` "wrong length", raised by `DEC`. -/
  | errLength
  /-- `FormatError` "bad magic", raised by `DEC`. -/
  | errMagic
  /-- `IntegrityError`, raised by `DEC`. -/
  | errCrc
  /-- `AuthenticationError`, raised by `DEC`. -/
  | errMac
  /-- An illegal command word. -/
  | errIllegal
deriving DecidableEq, Repr

/-- The trailer buffer: ten 8-bit registers, index `i` being the byte offset `i` (R16).
DEDUCED: the unit has no memory, so this register array stands where another machine has one, safe (log entry 12). -/
abbrev Trailer := Vector Byte 10

/-- The entries of the register map (R32). `cmd` is a register number, not state (R20). -/
inductive Reg where
  | cmd
  | status
  | crcr
  | mac8In
  | epochIn
  | rootIn
  | tip0In
  | tip1In
  | tlen
  | epochOut
  | rootOut
  | tip0Out
  | tip1Out
  | trl (i : Fin 10)
deriving DecidableEq, Repr

/-- Host access to a mapped register number (R32). -/
inductive Access where
  /-- Write only: the write executes; reads 0 (`CMD`). -/
  | executes
  | readOnly
  | readWrite
deriving DecidableEq, Repr

/-- The registers that hold an unspecified draw after reset, one value each of its width, `W_IN`
being `w` (R26). -/
structure Draws (w : Nat) where
  mac8In : Byte
  epochIn : BitVec w
  rootIn : BitVec w
  tip0In : BitVec w
  tip1In : BitVec w
  epochOut : Byte
  rootOut : BitVec 16
  tip0Out : BitVec 12
  tip1Out : BitVec 12
  trl : Trailer
deriving DecidableEq, Repr

/-- What reaches the unit from outside: the two host transactions (R31) and reset (R113).
DESIGN CHOICE: a reset is an event of its own, as R124 allows, and carries its draws, safe (log entry 4). -/
inductive Event (w : Nat) where
  /-- `WR(n, d)`. -/
  | wr (n : RegNum) (d : Word)
  /-- `RD(n)`. -/
  | rd (n : RegNum)
  /-- Reset, with the values the draw registers take. -/
  | reset (draws : Draws w)
deriving DecidableEq, Repr

/-- The architectural state of one unit: exactly the registers of R10, each of its width, `W_IN` being `w` (R29). -/
@[ext]
structure Tcu (w : Nat) where
  /-- `STATUS`: `[3:0]` is `CODE`, `[7:4]` is reserved and reads 0 (R19). -/
  status : Byte
  /-- `CRCR`, the CRC-8 running register (R11). -/
  crcr : Byte
  /-- `MAC8_IN` (R15). -/
  mac8In : Byte
  /-- `EPOCH_IN` (R12). -/
  epochIn : BitVec w
  /-- `ROOT_IN` (R13). -/
  rootIn : BitVec w
  /-- `TIP0_IN` (R14). -/
  tip0In : BitVec w
  /-- `TIP1_IN` (R14). -/
  tip1In : BitVec w
  /-- `TLEN` (R17). -/
  tlen : BitVec w
  /-- `EPOCH_OUT` (R18). -/
  epochOut : Byte
  /-- `ROOT_OUT` (R18). -/
  rootOut : BitVec 16
  /-- `TIP0_OUT` (R18). -/
  tip0Out : BitVec 12
  /-- `TIP1_OUT` (R18). -/
  tip1Out : BitVec 12
  /-- `TRL[0]` to `TRL[9]` (R16). -/
  trl : Trailer
deriving DecidableEq, Repr

/-- The registers of the unit the machine runs, at the spec's own configuration. -/
abbrev UnitRegs := Tcu Config.tcu.wIn

/-- What can reach that unit. -/
abbrev HostEvent := Event Config.tcu.wIn

/-- The unit, and the host's side of the interface: what it has still to issue and what its `RD`s returned.
DESIGN CHOICE: the last two belong to the host, not to the unit (R21, R124), safe (log entry 2). -/
@[ext]
structure State where
  /-- The unit's registers (R10). -/
  unit : UnitRegs
  /-- The events still to come, in order (R39, R124). -/
  pending : List HostEvent
  /-- The values the `RD`s returned, oldest first (R124). -/
  reads : List Word
deriving DecidableEq, Repr

/-- The unit never stops: every command word and every transaction has a defined next state (R108, R124).
So no fault exists and nothing raises one: safe (log entry 10). -/
inductive Fault
deriving DecidableEq, Repr

/-- Refusals. -/
inductive Refusal where
  /-- An instruction without a meaning. Raised by nobody: every command has its meaning, safe. -/
  | notModelled (mnemonic : String)
deriving DecidableEq, Repr

/-- The registers after reset, the draws being `d` (R26, R113). -/
def Tcu.resetWith {w : Nat} (d : Draws w) : Tcu w where
  status := 0x00
  crcr := Config.crcInit
  mac8In := d.mac8In
  epochIn := d.epochIn
  rootIn := d.rootIn
  tip0In := d.tip0In
  tip1In := d.tip1In
  tlen := 0
  epochOut := d.epochOut
  rootOut := d.rootOut
  tip0Out := d.tip0Out
  tip1Out := d.tip1Out
  trl := d.trl

/-- A reset state of R26 for the draws `d`: no transaction issued yet, none read. -/
def State.resetWith (d : Draws Config.tcu.wIn) : State := { unit := Tcu.resetWith d, pending := [], reads := [] }

/-- The draw the model names for `State.reset`.
DESIGN CHOICE: all zero, where R26 allows any value; unsafe, so statements use `State.resetWith` (log entry 1). -/
def Draws.zero {w : Nat} : Draws w where
  mac8In := 0x00
  epochIn := 0
  rootIn := 0
  tip0In := 0
  tip1In := 0
  epochOut := 0x00
  rootOut := 0
  tip0Out := 0
  tip1Out := 0
  trl := #v[0x00, 0x00, 0x00, 0x00, 0x00, 0x00, 0x00, 0x00, 0x00, 0x00]

/-- The machine right after reset (R26, R113), with the named draw of log entry 1. -/
def State.reset : State := State.resetWith Draws.zero

end Sys2Proof.Machine
end

