-- ==== Sys2Proof/Machine/Flags.lean ====
section
/-! DEFINITION. The status register: the numbers of the codes and the one way `STATUS` is written (R19, R59). -/

namespace Sys2Proof.Machine

/-- The number of a code in `STATUS[3:0]` (R59). -/
def Code.bits : Code → BitVec 4
  | .ok => 0x0
  | .errRange => 0x1
  | .errLength => 0x2
  | .errMagic => 0x3
  | .errCrc => 0x4
  | .errMac => 0x5
  | .errIllegal => 0x6

/-- The code with a number; `0x7` to `0xF` name none (R59). -/
def Code.ofBits (b : BitVec 4) : Option Code :=
  match b.toNat with
  | 0 => some .ok
  | 1 => some .errRange
  | 2 => some .errLength
  | 3 => some .errMagic
  | 4 => some .errCrc
  | 5 => some .errMac
  | 6 => some .errIllegal
  | _ => none

/-- The value of `STATUS` that reports `c`: `STATUS[3:0] = c`, `STATUS[7:4] = 0` (R19, R99). -/
def statusOf (c : Code) : Byte := (0x0 : BitVec 4) ++ c.bits

/-- Field `CODE`, `STATUS[3:0]` (R19). -/
def Tcu.codeBits {w : Nat} (u : Tcu w) : BitVec 4 := u.status.extractLsb' 0 4

/-- Field `STATUS[7:4]`, reserved (R19). -/
def Tcu.statusReserved {w : Nat} (u : Tcu w) : BitVec 4 := u.status.extractLsb' 4 4

/-- `STATUS.CODE <- c` (R19, R99). -/
def Tcu.setCode {w : Nat} (c : Code) (u : Tcu w) : Tcu w := { u with status := statusOf c }

end Sys2Proof.Machine
end

