-- ==== Sys2Proof/Machine/Operands.lean ====
section
/-! DEFINITION. How values pass between a 32-bit datum and a register of another width (R29, R31, R33).
DESIGN CHOICE: where a configuration's `W_IN` is above `W_BUS` = 32, on which R31 and R33 say nothing, a `WR` fills with
zeros and an `RD` returns the low 32 bits; the machine's own `W_IN` is 32, safe (log entry 6). -/

namespace Sys2Proof.Machine

/-- `d[w-1:0]`: what a `WR` stores in a register of width `w` (R31, R33). -/
def cut (w : Nat) (d : Word) : BitVec w := d.setWidth w

/-- `zext_32(v)`: what an `RD` returns of a register value `v` (R7, R31). -/
def zext32 {w : Nat} (v : BitVec w) : Word := v.setWidth 32

end Sys2Proof.Machine
end

