-- ==== Sys2Proof/Machine/Ops.lean ====
section
/-! DEFINITION. The shared operations: reporting an error, the register map, reading and writing a register,
and the big-endian view of the trailer buffer. -/

namespace Sys2Proof.Machine

/-! ## Reporting (R99) -/

/-- `raise E`: the command ends with `STATUS.CODE <- E` and no other register written (R99).
This is the unit's whole "trap entry"; nothing is saved, and there is nothing to return from (R101). -/
def Tcu.raise {w : Nat} (e : Code) (u : Tcu w) : Tcu w := u.setCode e

/-- The last act of a command that succeeds: `STATUS <- OK` (R19, R68, R69, R77, R87). -/
def Tcu.succeed {w : Nat} (u : Tcu w) : Tcu w := u.setCode .ok

/-- A command acts on the unit's registers and on nothing of the host's (R25, R28). -/
def State.mapUnit (f : UnitRegs → UnitRegs) (s : State) : State := { s with unit := f s.unit }

/-- The host notes the value an `RD` returned (R124). -/
def State.note (v : Word) (s : State) : State := { s with reads := s.reads ++ [v] }

/-! ## The register map (R32) -/

/-- The number of a register (R32). -/
def Reg.number : Reg → RegNum
  | .cmd => 0x00
  | .status => 0x01
  | .crcr => 0x02
  | .mac8In => 0x03
  | .epochIn => 0x04
  | .rootIn => 0x05
  | .tip0In => 0x06
  | .tip1In => 0x07
  | .tlen => 0x08
  | .epochOut => 0x09
  | .rootOut => 0x0A
  | .tip0Out => 0x0B
  | .tip1Out => 0x0C
  | .trl i => 0x10 + BitVec.ofNat 8 i.val

/-- The width of a register in bits, for a configuration (R10, R32). -/
def Reg.width (c : Config) : Reg → Nat
  | .cmd => Config.wBus
  | .status => 8
  | .crcr => 8
  | .mac8In => 8
  | .epochIn => c.wIn
  | .rootIn => c.wIn
  | .tip0In => c.wIn
  | .tip1In => c.wIn
  | .tlen => c.wIn
  | .epochOut => Config.epochBits
  | .rootOut => Config.rootBits
  | .tip0Out => Config.tipBits
  | .tip1Out => Config.tipBits
  | .trl _ => 8

/-- Host access to a register (R10, R32). -/
def Reg.access : Reg → Access
  | .cmd => .executes
  | .status => .readOnly
  | .crcr => .readOnly
  | .mac8In => .readWrite
  | .epochIn => .readWrite
  | .rootIn => .readWrite
  | .tip0In => .readWrite
  | .tip1In => .readWrite
  | .tlen => .readWrite
  | .epochOut => .readOnly
  | .rootOut => .readOnly
  | .tip0Out => .readOnly
  | .tip1Out => .readOnly
  | .trl _ => .readWrite

/-- The register a number names, if any: numbers not in R32 are unmapped. -/
def Reg.ofNumber (n : RegNum) : Option Reg :=
  match n.toNat with
  | 0x00 => some .cmd
  | 0x01 => some .status
  | 0x02 => some .crcr
  | 0x03 => some .mac8In
  | 0x04 => some .epochIn
  | 0x05 => some .rootIn
  | 0x06 => some .tip0In
  | 0x07 => some .tip1In
  | 0x08 => some .tlen
  | 0x09 => some .epochOut
  | 0x0A => some .rootOut
  | 0x0B => some .tip0Out
  | 0x0C => some .tip1Out
  | 0x10 => some (.trl 0)
  | 0x11 => some (.trl 1)
  | 0x12 => some (.trl 2)
  | 0x13 => some (.trl 3)
  | 0x14 => some (.trl 4)
  | 0x15 => some (.trl 5)
  | 0x16 => some (.trl 6)
  | 0x17 => some (.trl 7)
  | 0x18 => some (.trl 8)
  | 0x19 => some (.trl 9)
  | _ => none

/-! ## Reading and writing a register (R31, R33, R34) -/

/-- `zext_32(x[n])` of a mapped register; `CMD` reads 0 (R31). -/
def Tcu.get {w : Nat} (r : Reg) (u : Tcu w) : Word :=
  match r with
  | .cmd => 0x00000000
  | .status => zext32 u.status
  | .crcr => zext32 u.crcr
  | .mac8In => zext32 u.mac8In
  | .epochIn => zext32 u.epochIn
  | .rootIn => zext32 u.rootIn
  | .tip0In => zext32 u.tip0In
  | .tip1In => zext32 u.tip1In
  | .tlen => zext32 u.tlen
  | .epochOut => zext32 u.epochOut
  | .rootOut => zext32 u.rootOut
  | .tip0Out => zext32 u.tip0Out
  | .tip1Out => zext32 u.tip1Out
  | .trl i => zext32 u.trl[i.val]

/-- `x[n] <- d[w-1:0]` where the register is read-write, and nothing where it is not (R31, R34).
A write to `CMD` does not come here: it executes (R20). -/
def Tcu.put {w : Nat} (r : Reg) (d : Word) (u : Tcu w) : Tcu w :=
  match r with
  | .cmd => u
  | .status => u
  | .crcr => u
  | .mac8In => { u with mac8In := cut 8 d }
  | .epochIn => { u with epochIn := cut w d }
  | .rootIn => { u with rootIn := cut w d }
  | .tip0In => { u with tip0In := cut w d }
  | .tip1In => { u with tip1In := cut w d }
  | .tlen => { u with tlen := cut w d }
  | .epochOut => u
  | .rootOut => u
  | .tip0Out => u
  | .tip1Out => u
  | .trl i => { u with trl := u.trl.set i.val (cut 8 d) }

/-- The datum an `RD(n)` returns (R31); an unmapped number reads 0 (R34). -/
def Tcu.hostRead {w : Nat} (n : RegNum) (u : Tcu w) : Word :=
  match Reg.ofNumber n with
  | some r => u.get r
  | none => 0x00000000

/-- What a `WR(n, d)` to a number other than `CMD` does (R31); an unmapped number ignores it (R34). -/
def Tcu.hostWrite {w : Nat} (n : RegNum) (d : Word) (u : Tcu w) : Tcu w :=
  match Reg.ofNumber n with
  | some r => u.put r d
  | none => u

/-! ## The trailer buffer as big-endian bytes (R6, R7, R35, R46) -/

/-- `MemRead(addr, n)`: the big-endian value of `n` bytes from index `addr`, for `addr + n <= 10` (R7). -/
def memRead (t : Trailer) (addr : Nat) : Nat → Nat
  | 0 => 0
  | n + 1 => memRead t addr n * 256 + (t.toList.getD (addr + n) 0x00).toNat

/-- `MemWrite(addr, n, v)`: the low `8 n` bits of `v`, big-endian from index `addr`, for `addr + n <= 10` (R7). -/
def memWrite (t : Trailer) (addr : Nat) : Nat → Nat → Trailer
  | 0, _ => t
  | n + 1, v => (memWrite t addr n (v / 256)).setIfInBounds (addr + n) (BitVec.ofNat 8 v)

/-- The 80-bit trailer value `T = TRL[0] : ... : TRL[9]` (R6). -/
def trailerValue (t : Trailer) : BitVec 80 :=
  t[0] ++ t[1] ++ t[2] ++ t[3] ++ t[4] ++ t[5] ++ t[6] ++ t[7] ++ t[8] ++ t[9]

/-- The bytes the CRC covers, `TRL[0..8]` (R54). -/
def crcBody (t : Trailer) : List Byte := t.toList.take Config.crcSpan

end Sys2Proof.Machine
end

