-- ==== Sys2Proof/Machine/Pack.lean ====
section
/-! DEFINITION. The field packer: range validation (R75), trailer assembly (R50, R76) and the command `ENC` (R77).
The pure functions take input integers of any width `w`, so that a claim may name `W_IN` (R4, D4). -/

namespace Sys2Proof.Machine

/-- `range_ok(epoch, root)`: one check with one outcome (R75). -/
def rangeOk {w : Nat} (epoch root : BitVec w) : Bool := epoch.toNat < 256 && root.toNat < 65536

/-- `pack_tips(tip0, tip1)`: the source's formula on unbounded integers, a 24-bit result (R50, R81). -/
def packTips {w : Nat} (tip0 tip1 : BitVec w) : BitVec 24 :=
  BitVec.ofNat 24 (((tip0.toNat &&& 0xFFF) <<< 12) ||| (tip1.toNat &&& 0xFFF))

/-- Bytes 0 to 8 of `pack_trailer` (R76); byte 8 is `RSVD8` (R53). -/
def packBody {w : Nat} (c : Config) (epoch root tip0 tip1 : BitVec w) (mac8 : Byte) : Vector Byte 9 :=
  let packed := packTips tip0 tip1
  #v[Config.magic,
     epoch.extractLsb' 0 8,
     root.extractLsb' 8 8, root.extractLsb' 0 8,
     packed.extractLsb' 16 8, packed.extractLsb' 8 8, packed.extractLsb' 0 8,
     mac8,
     c.rsvd8]

/-- `pack_trailer(epoch, root, tip0, tip1, mac8)`: the body with its CRC as the last byte (R54, R76). -/
def packTrailer {w : Nat} (c : Config) (epoch root tip0 tip1 : BitVec w) (mac8 : Byte) : Trailer :=
  let body := packBody c epoch root tip0 tip1 mac8
  body.push (crc8 body.toList)

/-- The effect of `ENC` on the registers, for the configuration `c` (R77). -/
def Tcu.encode (c : Config) (u : Tcu c.wIn) : Tcu c.wIn :=
  if rangeOk u.epochIn u.rootIn then
    { u with
      trl := packTrailer c u.epochIn u.rootIn u.tip0In u.tip1In u.mac8In
      tlen := BitVec.ofNat c.wIn Config.trailerLen }.succeed
  else
    u.raise .errRange

/-- `ENC` (R77). -/
def execEnc (s : State) : Host.Outcome State Fault Refusal := .next (s.mapUnit (Tcu.encode Config.tcu))

end Sys2Proof.Machine
end

