-- ==== Sys2Proof/Machine/Unpack.lean ====
section
/-! DEFINITION. The field unpacker: the check sequence (R85), unpacking (R51, R86) and the command `DEC` (R87). -/

namespace Sys2Proof.Machine

/-- `check_trailer(len, t, m)`: the first failing check decides the outcome (R85, R98). -/
def checkTrailer {w : Nat} (len : BitVec w) (t : Trailer) (m : Byte) : Code :=
  if len.toNat ≠ Config.trailerLen then .errLength
  else if t[0] ≠ Config.magic then .errMagic
  else if crc8 (crcBody t) ≠ t[9] then .errCrc
  else if m ≠ t[7] then .errMac
  else .ok

/-- `unpack_tips(packed)`: the two 12-bit halves, the first in the high one (R51). -/
def unpackTips (packed : BitVec 24) : BitVec 12 × BitVec 12 :=
  (packed.extractLsb' 12 12, packed.extractLsb' 0 12)

/-- The three results of the source's `decode`, as R86 returns them. -/
structure Fields where
  epoch : Byte
  root : BitVec 16
  tip0 : BitVec 12
  tip1 : BitVec 12
deriving DecidableEq, Repr

/-- `unpack_trailer(t)`: bytes 1 to 6 only, big-endian (R49, R86). -/
def unpackTrailer (t : Trailer) : Fields :=
  let tips := unpackTips (t[4] ++ t[5] ++ t[6])
  { epoch := t[1], root := t[2] ++ t[3], tip0 := tips.1, tip1 := tips.2 }

/-- The four output registers, all at once (R18, R87). -/
def Tcu.putFields {w : Nat} (f : Fields) (u : Tcu w) : Tcu w :=
  { u with epochOut := f.epoch, rootOut := f.root, tip0Out := f.tip0, tip1Out := f.tip1 }

/-- The effect of `DEC` on the registers (R87). -/
def Tcu.decode {w : Nat} (u : Tcu w) : Tcu w :=
  let c := checkTrailer u.tlen u.trl u.mac8In
  if c ≠ .ok then u.raise c
  else (u.putFields (unpackTrailer u.trl)).succeed

/-- `DEC` (R87). -/
def execDec (s : State) : Host.Outcome State Fault Refusal := .next (s.mapUnit Tcu.decode)

end Sys2Proof.Machine
end

