-- ==== Sys2Proof/Machine/Transact.lean ====
section
/-! DEFINITION. What one event from outside does: the host transactions of R31, the illegal command of R109, the
reset of R113; and a list of them in order (R39, R124). -/

namespace Sys2Proof.Machine

/-- A `WR` to `CMD` of an illegal word: `STATUS.CODE <- ERR_ILLEGAL` and nothing else (R109). -/
def illegalCommand (s : State) : Host.Outcome State Fault Refusal := .next (s.mapUnit (Tcu.raise .errIllegal))

/-- A `WR` to `CMD`: execute the word, and store nothing (R20, R31). Illegality is decided first (R98). -/
def command (w : Word) (s : State) : Host.Outcome State Fault Refusal :=
  match decodeCmd w with
  | .ok i => exec i s
  | .error _ => illegalCommand s

/-- `WR(n, d)` (R31). -/
def hostWr (n : RegNum) (d : Word) (s : State) : Host.Outcome State Fault Refusal :=
  if n = Reg.cmd.number then command d s else .next (s.mapUnit (Tcu.hostWrite n d))

/-- `RD(n)`: returns a datum and changes no register (R31). -/
def hostRd (n : RegNum) (s : State) : Host.Outcome State Fault Refusal :=
  .next (s.note (s.unit.hostRead n))

/-- Reset: every register of the unit (R113); what the host has still to issue and has read is the host's own. -/
def hostReset (d : Draws Config.tcu.wIn) (s : State) : Host.Outcome State Fault Refusal :=
  .next (s.mapUnit fun _ => Tcu.resetWith d)

/-- One event, from the state it finds to the state it leaves, atomic (R31, R37, R113). -/
def transact (e : HostEvent) (s : State) : Host.Outcome State Fault Refusal :=
  match e with
  | .wr n d => hostWr n d s
  | .rd n => hostRd n s
  | .reset d => hostReset d s

/-- Go on with `f` after a next state; stop where the first part stopped. -/
def andThen {α β : Type} (o : Host.Outcome α Fault Refusal) (f : α → Host.Outcome β Fault Refusal) :
    Host.Outcome β Fault Refusal :=
  match o with
  | .next a => f a
  | .fault r => .fault r
  | .refused r => .refused r

/-- A list of events, one after the other, each seeing the state the earlier ones left (R39, R124). -/
def runEvents : List HostEvent → State → Host.Outcome State Fault Refusal
  | [], s => .next s
  | e :: rest, s => andThen (transact e s) (runEvents rest)

/-- The next step of the unit: the first pending event, or nothing while the host issues none (R113, R124).
DESIGN CHOICE: with nothing pending the unit waits and the state stays as it is, safe (log entry 2). -/
def nextEvent (s : State) : Host.Outcome State Fault Refusal :=
  match s.pending with
  | [] => .next s
  | e :: rest => transact e { s with pending := rest }

/-- The host's next transaction is the `WR` to `CMD` of the word `w` (R8, R20).
DESIGN CHOICE: the unit fetches nothing, so a program reaches it as the host's transactions, safe (log entry 3). -/
def State.issueCommand (s : State) (w : Word) : State :=
  { s with pending := .wr Reg.cmd.number w :: s.pending }

end Sys2Proof.Machine
end

