-- ==== Sys2Proof/Machine/Step.lean ====
section
/-! DEFINITION. One step: one transaction is one step (R37, R123, R124). -/

namespace Sys2Proof.Machine

/-- One step of the machine: the next pending event, atomic (R37, R124). -/
def step (s : State) : Host.Outcome State Fault Refusal := nextEvent s

/-- `s` with the command of the word `w` as the host's very next transaction (R8; log entry 3). -/
def State.withFetchWord (s : State) (nbits w : Nat) : State :=
  s.issueCommand (BitVec.ofNat 32 (w % 2 ^ nbits))

end Sys2Proof.Machine
end

