-- ==== Sys2Proof/Machine/AnyConfig.lean ====
section
/-! DEFINITION. The unit at any configuration (R4, R27): what each command, command word and event does to its registers
and what it returns, as plain functions, so that a claim can be stated for every `RSVD8` and every `W_IN`. `exec` and
`transact` are these functions at `Config.tcu` (`exec_eq` and `transact_eq` in `Laws/Commands.lean`). -/

namespace Sys2Proof.Machine

/-- The registers after a command (R57). -/
def Tcu.afterCommand (c : Config) (i : Instr) (u : Tcu c.wIn) : Tcu c.wIn :=
  match i with
  | .crcClr => u.crcClr
  | .crcUpd imm8 => u.crcUpd imm8
  | .enc => u.encode c
  | .dec => u.decode

/-- The registers after a word written to `CMD` (R31, R109). -/
def Tcu.afterWord (c : Config) (w : Word) (u : Tcu c.wIn) : Tcu c.wIn :=
  match decodeCmd w with
  | .ok i => u.afterCommand c i
  | .error _ => u.raise .errIllegal

/-- The registers after an event (R31, R113). -/
def Tcu.afterEvent (c : Config) (e : Event c.wIn) (u : Tcu c.wIn) : Tcu c.wIn :=
  match e with
  | .wr n d => if n = Reg.cmd.number then u.afterWord c d else u.hostWrite n d
  | .rd _ => u
  | .reset d => Tcu.resetWith d

/-- What an event returns to the host (R31). -/
def Tcu.answers {w : Nat} (e : Event w) (u : Tcu w) : List Word :=
  match e with
  | .wr _ _ => []
  | .rd n => [u.hostRead n]
  | .reset _ => []

/-- The registers after a list of events, in order (R39, R124). -/
def Tcu.afterEvents (c : Config) (es : List (Event c.wIn)) (u : Tcu c.wIn) : Tcu c.wIn :=
  es.foldl (fun v e => v.afterEvent c e) u

/-- What a list of events returns to the host, in order (R124). -/
def Tcu.answersAll (c : Config) : List (Event c.wIn) → Tcu c.wIn → List Word
  | [], _ => []
  | e :: es, u => u.answers e ++ Tcu.answersAll c es (u.afterEvent c e)

end Sys2Proof.Machine
end

