-- ==== Sys2Proof/Machine/Asm.lean ====
section
/-! DEFINITION. Host programs: the events a line stands for (R62), the pseudo-instructions (R63), and the line
syntax itself (R62, R64). -/

namespace Sys2Proof.Machine

/-! ## The events a line stands for -/

/-- A command as the host transaction that carries it, `WR CMD, <word>` (R62). -/
def commandEvent (i : Instr) : HostEvent := .wr Reg.cmd.number (encode i)

/-- A `WR` to a named register. -/
def writeEvent (r : Reg) (d : Word) : HostEvent := .wr r.number d

/-- `RD` of a named register. -/
def readEvent (r : Reg) : HostEvent := .rd r.number

/-- `WR TRL[i], bi` for `i = 0 .. min(n,10)-1`, in order (R63). -/
def loadBytes (bytes : List Byte) : List HostEvent :=
  List.zipWith (fun i b => writeEvent (.trl i) (zext32 b)) (List.finRange 10) bytes

/-- `LDTRL b0 ... bn-1` (R63). -/
def ldtrl (bytes : List Byte) : List HostEvent :=
  loadBytes bytes ++ [writeEvent .tlen (BitVec.ofNat 32 bytes.length)]

/-- `CRC.BYTES b0 ... bn-1` (R63). -/
def crcBytes (bytes : List Byte) : List HostEvent := bytes.map fun b => commandEvent (.crcUpd b)

/-- `CRC.OF b0 ... bn-1` (R63). -/
def crcOf (bytes : List Byte) : List HostEvent := commandEvent .crcClr :: crcBytes bytes

/-- `SETENC e, r, t0, t1, m` (R63). -/
def setenc (e r t0 t1 m : Word) : List HostEvent :=
  [writeEvent .epochIn e, writeEvent .rootIn r, writeEvent .tip0In t0, writeEvent .tip1In t1, writeEvent .mac8In m]

/-- The events of a line (R62, R63); the numerals are taken to fit, as `AsmLine.wellFormed` checks. -/
def lineEvents : AsmLine → List HostEvent
  | .wr reg value => [.wr (BitVec.ofNat 8 reg) (BitVec.ofNat 32 value)]
  | .rd reg _ => [.rd (BitVec.ofNat 8 reg)]
  | .crcClr => [commandEvent .crcClr]
  | .crcUpd byte => [commandEvent (.crcUpd (BitVec.ofNat 8 byte))]
  | .enc => [commandEvent .enc]
  | .dec => [commandEvent .dec]
  | .ldtrl bytes => ldtrl (bytes.map (BitVec.ofNat 8))
  | .crcBytes bytes => crcBytes (bytes.map (BitVec.ofNat 8))
  | .crcOf bytes => crcOf (bytes.map (BitVec.ofNat 8))
  | .setenc e r t0 t1 m =>
    setenc (BitVec.ofNat 32 e) (BitVec.ofNat 32 r) (BitVec.ofNat 32 t0) (BitVec.ofNat 32 t1) (BitVec.ofNat 32 m)

/-- A host program: the events of its lines in order; none if a line's numerals cannot be presented. -/
def assemble (lines : List AsmLine) : Option (List HostEvent) :=
  if lines.all AsmLine.wellFormed then some (lines.flatMap lineEvents) else none

/-- What each `RD` of a program is stated to return, where its line states it (R62). -/
def expectedReads (lines : List AsmLine) : List (Option Word) :=
  lines.filterMap fun
    | .rd _ expected => some (expected.map (BitVec.ofNat 32))
    | .wr _ _ => none
    | .crcClr => none
    | .crcUpd _ => none
    | .enc => none
    | .dec => none
    | .ldtrl _ => none
    | .crcBytes _ => none
    | .crcOf _ => none
    | .setenc _ _ _ _ _ => none

/-- The values read are as the lines state them, where they state one (R62). -/
def readsAsExpected (expected : List (Option Word)) (reads : List Word) : Bool :=
  expected.length == reads.length &&
    (List.zipWith (fun (e : Option Word) v => e.all (· == v)) expected reads).all id

/-! ## The line syntax (R62, R64)
DESIGN CHOICE: where R62 says nothing, fields are separated by blanks or commas, hex digits may be of either case,
and a line with no field stands for nothing; safe (log entry 13). -/

/-- Cut a text into the fields between separators; `cur` is the field being read, last character first. -/
def fieldsFrom : List Char → List Char → List (List Char)
  | [], cur => if cur.isEmpty then [] else [cur.reverse]
  | c :: rest, cur =>
    if c == ' ' || c == ',' || c == '\t' then
      if cur.isEmpty then fieldsFrom rest [] else cur.reverse :: fieldsFrom rest []
    else fieldsFrom rest (c :: cur)

/-- The fields of a line, its comment left out (R62: `;` starts a comment). -/
def lineFields (line : List Char) : List (List Char) := fieldsFrom (line.takeWhile (· != ';')) []

/-- The value of a digit, at most hexadecimal. -/
def digitValue (c : Char) : Option Nat :=
  if '0' ≤ c ∧ c ≤ '9' then some (c.toNat - 48)
  else if 'A' ≤ c ∧ c ≤ 'F' then some (c.toNat - 55)
  else if 'a' ≤ c ∧ c ≤ 'f' then some (c.toNat - 87)
  else none

/-- Digits of a base read after the value `acc`. -/
def digitsFrom (base : Nat) : List Char → Nat → Option Nat
  | [], acc => some acc
  | c :: rest, acc =>
    match digitValue c with
    | some v => if v < base then digitsFrom base rest (acc * base + v) else none
    | none => none

/-- A value: hex with `0x`, or decimal (R62). -/
def numeral : List Char → Option Nat
  | '0' :: 'x' :: d :: rest => digitsFrom 16 (d :: rest) 0
  | d :: rest => digitsFrom 10 (d :: rest) 0
  | [] => none

/-- The register names of R32. -/
def regNames : List (String × Reg) :=
  [("CMD", .cmd), ("STATUS", .status), ("CRCR", .crcr), ("MAC8_IN", .mac8In), ("EPOCH_IN", .epochIn),
   ("ROOT_IN", .rootIn), ("TIP0_IN", .tip0In), ("TIP1_IN", .tip1In), ("TLEN", .tlen), ("EPOCH_OUT", .epochOut),
   ("ROOT_OUT", .rootOut), ("TIP0_OUT", .tip0Out), ("TIP1_OUT", .tip1Out)]

/-- The index of a trailer register: `TRL[i]` and `TRLi` both name register `0x10 + i` (R64). -/
def trlIndex : List Char → Option (Fin 10)
  | ['T', 'R', 'L', '[', d, ']'] => (digitsFrom 10 [d] 0).map (Fin.ofNat 10)
  | ['T', 'R', 'L', d] => (digitsFrom 10 [d] 0).map (Fin.ofNat 10)
  | _ => none

/-- A register operand: a name of R32, or a number (R62). -/
def regOperand (field : List Char) : Option Nat :=
  match regNames.find? (fun p => p.1.toList == field) with
  | some p => some p.2.number.toNat
  | none =>
    match trlIndex field with
    | some i => some (Reg.trl i).number.toNat
    | none => numeral field

/-- A line from its fields (R62, R63); mnemonics are upper case. -/
def lineOf (mnemonic : List Char) (args : List (List Char)) : Option AsmLine :=
  if mnemonic == "WR".toList then
    match args with
    | [r, v] => do return .wr (← regOperand r) (← numeral v)
    | _ => none
  else if mnemonic == "RD".toList then
    match args with
    | [r] => do return .rd (← regOperand r) none
    | [r, arrow, v] => if arrow == "->".toList then do return .rd (← regOperand r) (some (← numeral v)) else none
    | _ => none
  else if mnemonic == "CRC.CLR".toList then
    match args with
    | [] => some .crcClr
    | _ => none
  else if mnemonic == "CRC.UPD".toList then
    match args with
    | [b] => do return .crcUpd (← numeral b)
    | _ => none
  else if mnemonic == "ENC".toList then
    match args with
    | [] => some .enc
    | _ => none
  else if mnemonic == "DEC".toList then
    match args with
    | [] => some .dec
    | _ => none
  else if mnemonic == "LDTRL".toList then (args.mapM numeral).map .ldtrl
  else if mnemonic == "CRC.BYTES".toList then (args.mapM numeral).map .crcBytes
  else if mnemonic == "CRC.OF".toList then (args.mapM numeral).map .crcOf
  else if mnemonic == "SETENC".toList then
    match args with
    | [e, r, t0, t1, m] => do
      return .setenc (← numeral e) (← numeral r) (← numeral t0) (← numeral t1) (← numeral m)
    | _ => none
  else none

/-- One line of text: none where it is no line of R62 or R63, an empty list where it holds a comment only. -/
def parseLine (line : String) : Option (List AsmLine) :=
  match lineFields line.toList with
  | [] => some []
  | mnemonic :: args => (lineOf mnemonic args).map fun l => [l]

/-- A program of lines of text: its lines, if each is one. -/
def parseProgram (text : List String) : Option (List AsmLine) := (text.mapM parseLine).map List.flatten

/-! ## Running a program (R124) -/

/-- A run: a finite list of host transactions applied in order from a reset state, the draws being `d` (R124).
The observation is the final state with the values the `RD`s returned. -/
def runProgram (d : Draws Config.tcu.wIn) (program : List HostEvent) : Host.Outcome State Fault Refusal :=
  runEvents program (State.resetWith d)

end Sys2Proof.Machine
end

