-- ==== Sys2Proof/Machine/Wrapper.lean ====
section
/-! DEFINITION. The host procedures that turn the source's `encode` and `decode` into host transactions (R80, R90,
R92), with the source's error kinds (R95, R110). They are outside the unit: one call at a time per unit (R119). -/

namespace Sys2Proof.Machine

/-- The two messages of the source's `FormatError` (R59). -/
inductive FormatReason where
  | wrongLength
  | badMagic
deriving DecidableEq, Repr

/-- The source's four error kinds (R95). -/
inductive SourceError where
  | rangeError
  | formatError (why : FormatReason)
  | integrityError
  | authenticationError
deriving DecidableEq, Repr

/-- `Mac8`: what drives `MAC8_IN` (R4, D2). -/
abbrev Mac := List Byte → List Byte → Byte

/-- A wrapper's call: the source's result or error, and the state it leaves. -/
abbrev Call (α : Type) := Host.Outcome (Except SourceError α × State) Fault Refusal

/-- The results of the source's `decode`, plain numbers (R90). -/
structure Decoded where
  epochS : Nat
  pRootId : Nat
  tip0 : Nat
  tip1 : Nat
deriving DecidableEq, Repr

/-- `RD` of a register, with the value returned. -/
def readBack (r : Reg) (s : State) : Host.Outcome (Word × State) Fault Refusal :=
  andThen (transact (readEvent r) s) fun s' => .next (s.unit.hostRead r.number, s')

/-- `RD` of several registers, in order. -/
def readBackAll : List Reg → State → Host.Outcome (List Word × State) Fault Refusal
  | [], s => .next ([], s)
  | r :: rest, s =>
    andThen (readBack r s) fun p => andThen (readBackAll rest p.2) fun q => .next (p.1 :: q.1, q.2)

/-- `TRL[0]` to `TRL[9]`. -/
def trlRegs : List Reg := (List.finRange 10).map Reg.trl

/-- An argument that a `W_IN`-bit register can be given, `0 <= v < 2^32` (R80). -/
def presentable (v : Int) : Bool := 0 ≤ v && v < 2 ^ Config.tcu.wIn

/-- The source's `encode` on the unit (R80). Tips are reduced modulo 2^32, two's complement for negatives. -/
def encodeCall (mac : Mac) (epochS pRootId tip0 tip1 : Int) (key message : List Byte) (s : State) :
    Call (List Byte) :=
  if presentable epochS && presentable pRootId then
    let inputs := setenc (BitVec.ofInt 32 epochS) (BitVec.ofInt 32 pRootId) (BitVec.ofInt 32 tip0)
      (BitVec.ofInt 32 tip1) (zext32 (mac key message))
    andThen (runEvents (inputs ++ [commandEvent .enc]) s) fun s1 =>
    andThen (readBack .status s1) fun c =>
    if c.1 ≠ 0x00000000 then .next (.error .rangeError, c.2)
    else andThen (readBackAll trlRegs c.2) fun t => .next (.ok (t.1.map (cut 8)), t.2)
  else .next (.error .rangeError, s)

/-- The source's error for the value a `DEC` left in `STATUS` (R90, R110). -/
def decodeError (status : Word) : Option SourceError :=
  if status = 0x2 then some (.formatError .wrongLength)
  else if status = 0x3 then some (.formatError .badMagic)
  else if status = 0x4 then some .integrityError
  else if status = 0x5 then some .authenticationError
  else none

/-- The end of `decode`: fail as `STATUS` says, or read the four results (R90). -/
def decodeResult (s : State) : Call Decoded :=
  andThen (readBack .status s) fun c =>
  match decodeError c.1 with
  | some e => .next (.error e, c.2)
  | none =>
    andThen (readBack .epochOut c.2) fun e =>
    andThen (readBack .rootOut e.2) fun r =>
    andThen (readBack .tip0Out r.2) fun a =>
    andThen (readBack .tip1Out a.2) fun b =>
    .next (.ok { epochS := e.1.toNat, pRootId := r.1.toNat, tip0 := a.1.toNat, tip1 := b.1.toNat }, b.2)

/-- Give the unit a tag byte and issue `DEC` (R90). -/
def decodeWith (m : Byte) : List HostEvent := [writeEvent .mac8In (zext32 m), commandEvent .dec]

/-- The source's `decode` on the unit, in one pass (R90). -/
def decodeCall (mac : Mac) (trailer key message : List Byte) (s : State) : Call Decoded :=
  if 2 ^ Config.tcu.wIn ≤ trailer.length then .next (.error (.formatError .wrongLength), s)
  else
    andThen (runEvents (ldtrl trailer ++ decodeWith (mac key message)) s) decodeResult

/-- The source's `decode` in two passes: the MAC unit is started only when the first `DEC` ends `0x5` or `0x0`
(R92). DEDUCED: the transactions of each pass, which R92 gives in words, safe (log entry 14). -/
def decodeTwoPass (mac : Mac) (trailer key message : List Byte) (s : State) : Call Decoded :=
  if 2 ^ Config.tcu.wIn ≤ trailer.length then .next (.error (.formatError .wrongLength), s)
  else
    andThen (runEvents (ldtrl trailer ++ [commandEvent .dec]) s) fun s1 =>
    andThen (readBack .status s1) fun c =>
    if c.1 = 0x5 ∨ c.1 = 0x0 then
      andThen (runEvents (decodeWith (mac key message)) c.2) decodeResult
    else
      match decodeError c.1 with
      | some e => .next (.error e, c.2)
      | none => decodeResult c.2

/-- The source's `encode`, the MAC unit being the one of the configuration (R80, U15). -/
def encodeSource (epochS pRootId tip0 tip1 : Int) (key message : List Byte) (s : State) : Call (List Byte) :=
  encodeCall Config.mac8 epochS pRootId tip0 tip1 key message s

/-- The source's `decode`, the MAC unit being the one of the configuration (R90, U15). -/
def decodeSource (trailer key message : List Byte) (s : State) : Call Decoded :=
  decodeCall Config.mac8 trailer key message s

end Sys2Proof.Machine
end

