-- ==== Sys2Proof/Safety.lean ====
section
/-! DEFINITION. What claims are stated in terms of: valid trailers (R55), the status invariant (R19), which
registers a command reads (R57) and an event may change (R28), and what a host has prepared (R115). -/

namespace Sys2Proof.Machine

/-- A valid trailer: ten bytes that pass checks 1 to 3 of `DEC` (R55). -/
def validTrailer (t : List Byte) : Bool :=
  t.length == 10 && t.getD 0 0x00 == 0xCF && crc8 (t.take 9) == t.getD 9 0x00

/-- Authentic for the tag byte `m` (R55). -/
def authenticFor (m : Byte) (t : List Byte) : Bool := validTrailer t && t.getD 7 0x00 == m

/-- `STATUS[7:4]` is 0 and `STATUS[3:0]` is one of the seven codes of R59 (R19).
DEDUCED: an invariant of the stored register, where R19 says what it always reads, safe (log entry 9). -/
def Tcu.statusWf {w : Nat} (u : Tcu w) : Bool := u.statusReserved == 0x0 && (Code.ofBits u.codeBits).isSome

/-- The invariant every step keeps: a machine whose `STATUS` reads as R19 says. -/
def State.Inv (s : State) : Prop := s.unit.statusWf = true

/-- The registers of R10, in the order of R32. -/
def Reg.stored : List Reg :=
  [.status, .crcr, .mac8In, .epochIn, .rootIn, .tip0In, .tip1In, .tlen, .epochOut, .rootOut, .tip0Out, .tip1Out] ++
    trlRegs

/-- The registers a command reads (R57, column "reads"). -/
def readSet : Instr → List Reg
  | .crcClr => []
  | .crcUpd _ => [.crcr]
  | .enc => [.epochIn, .rootIn, .tip0In, .tip1In, .mac8In]
  | .dec => [.tlen] ++ trlRegs ++ [.mac8In]

/-- The registers a command may change, on success and on failure (R28). -/
def commandMayChange {w : Nat} (u : Tcu w) : Instr → List Reg
  | .crcClr => [.crcr, .status]
  | .crcUpd _ => [.crcr, .status]
  | .enc => if rangeOk u.epochIn u.rootIn then trlRegs ++ [.tlen, .status] else [.status]
  | .dec =>
    if checkTrailer u.tlen u.trl u.mac8In = .ok then [.epochOut, .rootOut, .tip0Out, .tip1Out, .status]
    else [.status]

/-- The registers an event may change: the frame table (R28). -/
def mayChange {w : Nat} (u : Tcu w) : Event w → List Reg
  | .reset _ => Reg.stored
  | .rd _ => []
  | .wr n d =>
    if n = Reg.cmd.number then
      match decodeCmd d with
      | .ok i => commandMayChange u i
      | .error _ => [.status]
    else
      match Reg.ofNumber n with
      | some r => if r.access = .readWrite then [r] else []
      | none => []

/-- The codes a command can end with (R97). -/
def possibleCodes : Instr → List Code
  | .crcClr => [.ok]
  | .crcUpd _ => [.ok]
  | .enc => [.ok, .errRange]
  | .dec => [.ok, .errLength, .errMagic, .errCrc, .errMac]

/-- The command an event carries, if it carries a legal one. -/
def eventCommand {w : Nat} : Event w → Option Instr
  | .wr n d => if n = Reg.cmd.number then (decodeCmd d).toOption else none
  | .rd _ => none
  | .reset _ => none

/-- Some `CRC.UPD` byte, in order: the message a list of events streams through the CRC generator (R73). -/
def streamedBytes {w : Nat} (es : List (Event w)) : List Byte :=
  es.filterMap fun e =>
    match eventCommand e with
    | some (.crcUpd b) => some b
    | some .crcClr => none
    | some .enc => none
    | some .dec => none
    | none => none

/-- An event that may stand inside a streamed message: no `CRC.CLR` and no reset (R73). -/
def keepsStream {w : Nat} : Event w → Bool
  | .reset _ => false
  | .wr n d => eventCommand (.wr n d : Event w) != some .crcClr
  | .rd _ => true

/-- The datum of the latest `WR` to `r` since reset, if the host has written it (R115). -/
def latestWrite {w : Nat} (r : Reg) (es : List (Event w)) : Option Word :=
  es.foldl (fun acc e =>
    match e with
    | .reset _ => none
    | .rd _ => acc
    | .wr n d => if n = r.number then some d else acc) none

/-- The datum of the latest `WR` to `r` since the latest reset or `ENC`, whichever is later: what the host has loaded
into a register that `ENC` may overwrite (R115, R28). -/
def latestLoad {w : Nat} (r : Reg) (es : List (Event w)) : Option Word :=
  es.foldl (fun acc e =>
    match e with
    | .reset _ => none
    | .rd _ => acc
    | .wr n d =>
      if eventCommand (.wr n d : Event w) = some .enc then none
      else if n = r.number then some d else acc) none

/-- What the host must have written since reset before `ENC` (R115). -/
def preparedForEnc {w : Nat} (es : List (Event w)) : Bool :=
  (readSet .enc).all fun r => (latestWrite r es).isSome

/-- What the host must have written before `DEC` of a candidate it loads itself: `MAC8_IN` since reset, and since the
latest reset or `ENC` the declared length in `TLEN` and the bytes `TRL[0..min(n,10)-1]` (R115). -/
def preparedForDec {w : Nat} (es : List (Event w)) : Bool :=
  (latestWrite .mac8In es).isSome &&
    match latestLoad .tlen es with
    | none => false
    | some n => (trlRegs.take n.toNat).all fun r => (latestLoad r es).isSome

/-- Two units of any two widths `W_IN` whose registers hold the same numbers (R29, D4). -/
def Tcu.agrees {w w' : Nat} (u : Tcu w) (v : Tcu w') : Prop :=
  u.status = v.status ∧ u.crcr = v.crcr ∧ u.mac8In = v.mac8In ∧
  u.epochIn.toNat = v.epochIn.toNat ∧ u.rootIn.toNat = v.rootIn.toNat ∧
  u.tip0In.toNat = v.tip0In.toNat ∧ u.tip1In.toNat = v.tip1In.toNat ∧ u.tlen.toNat = v.tlen.toNat ∧
  u.epochOut = v.epochOut ∧ u.rootOut = v.rootOut ∧ u.tip0Out = v.tip0Out ∧ u.tip1Out = v.tip1Out ∧ u.trl = v.trl

/-- An input register or `TLEN`: the registers whose width is `W_IN` (R4, R10). -/
def Reg.hasInputWidth (r : Reg) : Bool := [Reg.epochIn, .rootIn, .tip0In, .tip1In, .tlen].contains r

/-- The same event for two units of any two widths: a datum for a register of width `W_IN` is presentable in both, and
a reset draws the same numbers (D4). -/
def Event.agrees {w w' : Nat} : Event w → Event w' → Prop
  | .wr n d, .wr n' d' =>
    n' = n ∧ d' = d ∧ ((Reg.ofNumber n).any Reg.hasInputWidth = true → d.toNat < 2 ^ w ∧ d.toNat < 2 ^ w')
  | .rd n, .rd n' => n' = n
  | .reset d, .reset d' => (Tcu.resetWith d).agrees (Tcu.resetWith d')
  | .wr _ _, .rd _ => False
  | .wr _ _, .reset _ => False
  | .rd _, .wr _ _ => False
  | .rd _, .reset _ => False
  | .reset _, .wr _ _ => False
  | .reset _, .rd _ => False

/-- A byte sequence whose bits, most significant first, are a multiple of G(x) = x^8 + x^4 + x^3 + x^2 + 1 over GF(2)
(R55, R70 (f)). -/
def multipleOfG (bytes : List Byte) : Prop :=
  (Polynomial.X ^ 8 + Polynomial.X ^ 4 + Polynomial.X ^ 3 + Polynomial.X ^ 2 + 1 : Polynomial (ZMod 2)) ∣
    (bytes.flatMap byteBits).foldl (fun p bit => p * Polynomial.X + Polynomial.C (if bit then 1 else 0)) 0

end Sys2Proof.Machine
end

