-- ==== Sys2Proof/Certificates/Slice0/Obligations.lean ====
section
/-! DEFINITION. The statements for the provers. Each docstring names the rule or the section of spec/ it formalises.
None rests on the draw that `State.reset` names (log entry 1): reset is spoken of for every draw. -/

open Sys2Proof Sys2Proof.Machine

/-! ## Encoding -/

/-- Section 2 of 30_encoding.md: decoding and encoding agree over all 2^32 words and all commands. -/
def Obligations.DecodeEncodeAgree : Prop :=
  ∀ (w : Word) (i : Instr), decodeCmd w = .ok i ↔ w = encode i

/-- The command table of 30_encoding.md section 2: a word decodes to a command exactly when it selects its row by
mask and match, and at most one row matches any word. -/
def Obligations.CommandTableSelects : Prop :=
  ∀ w : Word,
    (decodeCmd w = .ok .crcClr ↔ w &&& 0xFFFFFFFF = 0x00000100) ∧
    (∀ b, decodeCmd w = .ok (.crcUpd b) ↔ w &&& 0xFFFFFF00 = 0x00000200 ∧ b.toNat = w.toNat % 256) ∧
    (decodeCmd w = .ok .enc ↔ w &&& 0xFFFFFFFF = 0x00001000) ∧
    (decodeCmd w = .ok .dec ↔ w &&& 0xFFFFFFFF = 0x00002000) ∧
    cmdTable.countP (fun row => row.selects w) ≤ 1

/-- R58: which words are illegal, what an illegal word does, and that 259 words are legal. -/
def Obligations.IllegalWordsAreAllOthers : Prop :=
  (∀ w : Word,
    (∃ e, decodeCmd w = .error e) ↔
      w.toNat / 2 ^ 16 ≠ 0 ∨
      w.toNat / 2 ^ 8 % 2 ^ 8 ∉ [0x01, 0x02, 0x10, 0x20] ∨
      (w.toNat / 2 ^ 8 % 2 ^ 8 ∈ [0x01, 0x10, 0x20] ∧ w.toNat % 2 ^ 8 ≠ 0)) ∧
  (∃ e, decodeCmd 0x00000000 = .error e) ∧
  (∀ (w : Word) (s : State), (∃ e, decodeCmd w = .error e) →
    command w s = .next { s with unit := { s.unit with status := 0x06 } }) ∧
  ∃ legal : List Word, legal.length = 259 ∧ legal.Nodup ∧ ∀ w, w ∈ legal ↔ ∃ i, decodeCmd w = .ok i

/-- Words of 95_test_vectors.md section 2.7 decode as it lists them. -/
def Obligations.ListedWordsDecode : Prop :=
  decodeCmd 0x00000100 = .ok .crcClr ∧ decodeCmd 0x00000200 = .ok (.crcUpd 0x00) ∧
  decodeCmd 0x000002FF = .ok (.crcUpd 0xFF) ∧ decodeCmd 0x00001000 = .ok .enc ∧ decodeCmd 0x00002000 = .ok .dec ∧
  decodeCmd 0x00000101 = .error .operandNotZero ∧ decodeCmd 0x00002001 = .error .operandNotZero ∧
  decodeCmd 0x00000300 = .error .unknownOpcode ∧ decodeCmd 0x00001100 = .error .unknownOpcode ∧
  decodeCmd 0x00010100 = .error .reservedBits ∧ decodeCmd 0xFFFFFFFF = .error .reservedBits

/-! ## Steps and host transactions -/

/-- A step whose next event is a `WR` of a legal word to `CMD` is `exec` of its command, the event being consumed;
so is a step after `withFetchWord`. That the step takes it from a list is the model's choice (log entries 2, 3). -/
def Obligations.StepRunsDecodedCommand : Prop :=
  (∀ (s : State) (w : Word) (i : Instr) (rest : List HostEvent),
    s.pending = .wr 0x00 w :: rest → decodeCmd w = .ok i → step s = exec i { s with pending := rest }) ∧
  (∀ (s : State) (w : Word) (i : Instr), decodeCmd w = .ok i → step (s.withFetchWord 32 w.toNat) = exec i s)

/-- With no event pending the unit waits and its state stays as it is: the model's choice (log entry 2). -/
def Obligations.UnitWaitsForHost : Prop :=
  ∀ s : State, s.pending = [] → step s = .next s

/-- R31: the two host transactions, by the register map of R32. -/
def Obligations.TransactionsReadAndWrite : Prop :=
  ∀ (s : State) (n : RegNum) (d : Word) (rest : List HostEvent),
    (s.pending = .wr n d :: rest →
      (n = 0x00 → step s = command d { s with pending := rest }) ∧
      (∀ r, Reg.ofNumber n = some r → r.access = .readWrite →
        ∃ t, step s = .next t ∧ t.pending = rest ∧ t.reads = s.reads ∧
          (t.unit.get r).toNat = d.toNat % 2 ^ r.width Config.tcu ∧
          ∀ r', r' ≠ r → t.unit.get r' = s.unit.get r') ∧
      (n ≠ 0x00 → (∀ r, Reg.ofNumber n = some r → r.access ≠ .readWrite) →
        step s = .next { s with pending := rest })) ∧
    (s.pending = .rd n :: rest →
      ∃ v, step s = .next { s with pending := rest, reads := s.reads ++ [v] } ∧
        (n = 0x00 → v = 0x00000000) ∧
        (∀ r, n ≠ 0x00 → Reg.ofNumber n = some r → v = s.unit.get r) ∧
        (Reg.ofNumber n = none → v = 0x00000000))

/-- R32: the register map, row by row: number, register, width, access; no other number is mapped; a write to `CMD`
executes and a read of it gives 0. -/
def Obligations.RegisterMapTable : Prop :=
  let table : List (Nat × Reg × Nat × Access) :=
    [(0x00, .cmd, 32, .executes), (0x01, .status, 8, .readOnly), (0x02, .crcr, 8, .readOnly),
     (0x03, .mac8In, 8, .readWrite), (0x04, .epochIn, 32, .readWrite), (0x05, .rootIn, 32, .readWrite),
     (0x06, .tip0In, 32, .readWrite), (0x07, .tip1In, 32, .readWrite), (0x08, .tlen, 32, .readWrite),
     (0x09, .epochOut, 8, .readOnly), (0x0A, .rootOut, 16, .readOnly), (0x0B, .tip0Out, 12, .readOnly),
     (0x0C, .tip1Out, 12, .readOnly)] ++
    (List.finRange 10).map fun i => (0x10 + i.val, Reg.trl i, 8, Access.readWrite)
  (∀ (n : RegNum) (r : Reg), Reg.ofNumber n = some r ↔ ∃ w a, (n.toNat, r, w, a) ∈ table) ∧
  (∀ row ∈ table, row.2.1.width Config.tcu = row.2.2.1 ∧ row.2.1.access = row.2.2.2) ∧
  (∀ (s : State) (d : Word), transact (.wr 0x00 d) s = command d s) ∧ ∀ u : UnitRegs, u.hostRead 0x00 = 0x00000000

/-- Section 1 of 10_state.md and section 2 of 20_memory.md: an `RD` shows each register whole, widened with zeros,
and the 22 registers are all of the unit's state. -/
def Obligations.RegistersAreTheWholeUnit : Prop :=
  (∀ u : UnitRegs,
    (u.get .status).toNat = u.status.toNat ∧ (u.get .crcr).toNat = u.crcr.toNat ∧
    (u.get .mac8In).toNat = u.mac8In.toNat ∧ (u.get .epochIn).toNat = u.epochIn.toNat ∧
    (u.get .rootIn).toNat = u.rootIn.toNat ∧ (u.get .tip0In).toNat = u.tip0In.toNat ∧
    (u.get .tip1In).toNat = u.tip1In.toNat ∧ (u.get .tlen).toNat = u.tlen.toNat ∧
    (u.get .epochOut).toNat = u.epochOut.toNat ∧ (u.get .rootOut).toNat = u.rootOut.toNat ∧
    (u.get .tip0Out).toNat = u.tip0Out.toNat ∧ (u.get .tip1Out).toNat = u.tip1Out.toNat ∧
    ∀ i : Fin 10, (u.get (.trl i)).toNat = u.trl[i.val].toNat) ∧
  (∀ u v : UnitRegs, (∀ r ∈ Reg.stored, u.get r = v.get r) → u = v) ∧
  Reg.stored.length = 22 ∧ Reg.stored.Nodup

/-- R34: a `WR` to a read-only or unmapped number does nothing; an `RD` of `CMD` or an unmapped number returns 0. -/
def Obligations.WrongDirectionAccesses : Prop :=
  ∀ (s : State) (n : RegNum) (d : Word) (rest : List HostEvent),
    (s.pending = .wr n d :: rest →
      (n.toNat ∈ [0x01, 0x02, 0x09, 0x0A, 0x0B, 0x0C] ∨ (0x0D ≤ n.toNat ∧ n.toNat ≤ 0x0F) ∨ 0x1A ≤ n.toNat) →
      step s = .next { s with pending := rest }) ∧
    (s.pending = .rd n :: rest →
      (n.toNat = 0x00 ∨ (0x0D ≤ n.toNat ∧ n.toNat ≤ 0x0F) ∨ 0x1A ≤ n.toNat) →
      step s = .next { s with pending := rest, reads := s.reads ++ [0x00000000] })

/-- Section 4 of 20_memory.md: any number of `RD`s of any number change nothing and return the same value. -/
def Obligations.ReadsAreIdempotent : Prop :=
  ∀ (s : State) (n : RegNum) (k : Nat),
    ∃ v, runEvents (List.replicate k (.rd n)) s = .next { s with reads := s.reads ++ List.replicate k v } ∧
      transact (.rd n) s = .next { s with reads := s.reads ++ [v] }

/-- Section 6 of 20_memory.md, (a): an `RD` returns what the latest earlier `WR` stored, whatever stands between that
neither writes that register nor resets; `ENC` may write `TRL` and `TLEN`. -/
def Obligations.ReadReturnsLatestWrite : Prop :=
  ∀ (s : State) (r : Reg) (d : Word) (es : List HostEvent), r.access = .readWrite →
    (∀ e ∈ es, (∀ draws, e ≠ .reset draws) ∧ (∀ d', e ≠ .wr r.number d') ∧
      (eventCommand e = some .enc → r ≠ .tlen ∧ ∀ i, r ≠ .trl i)) →
    ∃ t v, runEvents (.wr r.number d :: es ++ [.rd r.number]) s = .next t ∧
      t.reads.getLast? = some v ∧ v.toNat = d.toNat % 2 ^ r.width Config.tcu

/-- The frame table, section 5 of 10_state.md: a step keeps every register that the table's entry for its event does
not list. -/
def Obligations.FrameTable : Prop :=
  ∀ (s : State) (e : HostEvent) (rest : List HostEvent), s.pending = e :: rest →
    ∃ t, step s = .next t ∧ t.pending = rest ∧ ∀ r, r ∉ mayChange s.unit e → t.unit.get r = s.unit.get r

/-- Section 5 of 70_reset_and_hazards.md and section 9 of 60_exceptions.md: from every state the host's list of events
is exhausted after as many steps as it has events, without a stop, and each `RD` adds one value. -/
def Obligations.EveryRunEnds : Prop :=
  ∀ s : State, ∃ t vs, Host.Core.run Sys2Proof.core s.pending.length s = .next t ∧ t.pending = [] ∧
    t.reads = s.reads ++ vs ∧ vs.length = s.pending.countP (fun e => match e with | .rd _ => true | _ => false)

/-- Stepping through the host's events is running them in order, each on the state the earlier ones left (section 6 of
20_memory.md). -/
def Obligations.StepsRunHostEventsInOrder : Prop :=
  ∀ (s : State) (es rest : List HostEvent),
    Host.Core.run Sys2Proof.core es.length { s with pending := es ++ rest } = runEvents es { s with pending := rest }

/-! ## Reset -/

/-- Section 4 of 10_state.md and section 1 of 70_reset_and_hazards.md: a reset event leaves the three defined values and
the draws, and every combination of draws is possible; the model's own reset state is one of them (log entry 1). -/
def Obligations.ResetLeavesDrawsOpen : Prop :=
  (∀ (s : State) (draws : Draws Config.tcu.wIn) (rest : List HostEvent), s.pending = .reset draws :: rest →
    step s = .next { s with pending := rest, unit := Tcu.resetWith draws }) ∧
  (∀ draws : Draws Config.tcu.wIn, (Tcu.resetWith draws).status = 0x00 ∧ (Tcu.resetWith draws).crcr = 0x00 ∧
    (Tcu.resetWith draws).tlen = 0x00000000) ∧
  (∀ u : UnitRegs, ∃ draws, Tcu.resetWith draws = { u with status := 0x00, crcr := 0x00, tlen := 0x00000000 }) ∧
  ∃ draws, State.reset = State.resetWith draws

/-- Section 1 of 70_reset_and_hazards.md: what works straight after reset, whatever the draws are. -/
def Obligations.StraightAfterReset : Prop :=
  ∀ draws : Draws Config.tcu.wIn,
    exec .dec (State.resetWith draws) =
      .next { State.resetWith draws with unit := { Tcu.resetWith draws with status := 0x02 } } ∧
    (∀ b, exec (.crcUpd b) (State.resetWith draws) =
      .next { State.resetWith draws with unit := { Tcu.resetWith draws with crcr := crc8 [b] } }) ∧
    (∀ w e, decodeCmd w = .error e → command w (State.resetWith draws) =
      .next { State.resetWith draws with unit := { Tcu.resetWith draws with status := 0x06 } }) ∧
    ∃ t, runEvents [.rd 0x01, .rd 0x02, .rd 0x08] (State.resetWith draws) = .next t ∧ t.reads = [0, 0, 0]

/-- Section 2 of 70_reset_and_hazards.md with section 4 of 10_state.md: once the host has written the registers that
`ENC` needs, its outcome does not depend on what the reset drew. -/
def Obligations.PreparedEncIgnoresDraws : Prop :=
  ∀ (draws draws' : Draws Config.tcu.wIn) (es : List HostEvent), preparedForEnc es = true →
    ∃ t t', runProgram draws (es ++ [.wr 0x00 0x00001000]) = .next t ∧
      runProgram draws' (es ++ [.wr 0x00 0x00001000]) = .next t' ∧
      t.unit.status = t'.unit.status ∧
      (t.unit.status = 0x00 → t.unit.trl = t'.unit.trl ∧ t.unit.tlen = t'.unit.tlen)

/-- The same for `DEC` (section 2 of 70_reset_and_hazards.md): of a candidate the host has loaded itself, its length in
`TLEN`, whatever `ENC`s came before the load; and of a trailer that a prepared `ENC` has just made. -/
def Obligations.PreparedDecIgnoresDraws : Prop :=
  ∀ (draws draws' : Draws Config.tcu.wIn) (es : List HostEvent),
    (preparedForDec es = true →
      ∃ t t', runProgram draws (es ++ [.wr 0x00 0x00002000]) = .next t ∧
        runProgram draws' (es ++ [.wr 0x00 0x00002000]) = .next t' ∧
        t.unit.status = t'.unit.status ∧
        (t.unit.status = 0x00 → t.unit.epochOut = t'.unit.epochOut ∧ t.unit.rootOut = t'.unit.rootOut ∧
          t.unit.tip0Out = t'.unit.tip0Out ∧ t.unit.tip1Out = t'.unit.tip1Out)) ∧
    (preparedForEnc es = true →
      ∀ s, runProgram draws (es ++ [.wr 0x00 0x00001000]) = .next s → s.unit.status = 0x00 →
        ∃ t t', runProgram draws (es ++ [.wr 0x00 0x00001000, .wr 0x00 0x00002000]) = .next t ∧
          runProgram draws' (es ++ [.wr 0x00 0x00001000, .wr 0x00 0x00002000]) = .next t' ∧
          t.unit.status = 0x00 ∧ t'.unit.status = 0x00 ∧
          t.unit.epochOut = t'.unit.epochOut ∧ t.unit.rootOut = t'.unit.rootOut ∧
          t.unit.tip0Out = t'.unit.tip0Out ∧ t.unit.tip1Out = t'.unit.tip1Out)

/-! ## Status and errors -/

/-- Section 2 of 10_state.md (`STATUS`): every step from a state whose `STATUS` has its reserved bits 0 and one of the
seven codes leaves such a state. -/
def Obligations.StatusStaysLegal : Prop :=
  ∀ s t : State, s.Inv → step s = .next t → t.Inv

/-- Every reset state has a legal `STATUS`, the model's own reset state among them. -/
def Obligations.ResetStatusIsLegal : Prop :=
  (∀ draws, (State.resetWith draws).Inv) ∧ State.reset.Inv

/-- R109: a `WR` to `CMD` of an illegal word writes `ERR_ILLEGAL` and nothing else. -/
def Obligations.IllegalCommandReported : Prop :=
  (∀ (s : State) (w : Word) (e : Illegal) (rest : List HostEvent),
    s.pending = .wr 0x00 w :: rest → decodeCmd w = .error e →
    step s = .next { s with pending := rest, unit := { s.unit with status := 0x06 } }) ∧
  (∃ e, decodeCmd 0x00000000 = .error e) ∧ ∃ e, decodeCmd 0x00001001 = .error e

/-- R100: a command word, legal or not, that ends with a code other than `OK` changes `STATUS` only. -/
def Obligations.FailingCommandChangesStatusOnly : Prop :=
  ∀ (w : Word) (s : State), ∃ t, command w s = .next t ∧
    (t.unit.codeBits ≠ 0x0 → t = { s with unit := { s.unit with status := t.unit.status } })

/-- Section 1 of 60_exceptions.md: each command ends with one of its codes, an illegal word with `ERR_ILLEGAL`, and no
other transaction touches `STATUS`. -/
def Obligations.CodesOfEachCommand : Prop :=
  (∀ (i : Instr) (s : State), ∃ t, exec i s = .next t ∧ ∃ c ∈ possibleCodes i, t.unit.status = statusOf c) ∧
  (∀ (w : Word) (e : Illegal) (s : State), decodeCmd w = .error e →
    ∃ t, command w s = .next t ∧ t.unit.status = statusOf .errIllegal) ∧
  (∀ (n : RegNum) (d : Word) (s : State), n ≠ 0x00 →
    ∃ t, transact (.wr n d) s = .next t ∧ t.unit.status = s.unit.status) ∧
  ∀ (n : RegNum) (s : State), ∃ t, transact (.rd n) s = .next t ∧ t.unit = s.unit

/-- No hidden state, section 3 of 10_state.md: in two states that agree on the registers a command's row lists as read,
it ends with the same code, and each register is either kept in both or gets the same value in both. -/
def Obligations.CommandsDependOnReadSetOnly : Prop :=
  ∀ (i : Instr) (s s' : State), (∀ r ∈ readSet i, s.unit.get r = s'.unit.get r) →
    ∃ t t', exec i s = .next t ∧ exec i s' = .next t' ∧ t.unit.status = t'.unit.status ∧
      ∀ r, (t.unit.get r = s.unit.get r ∧ t'.unit.get r = s'.unit.get r) ∨ t.unit.get r = t'.unit.get r

/-! ## The CRC-8 generator -/

/-- R65: the eight iterations, in the source's own operators on unbounded integers. -/
def Obligations.CrcUpdateLoop : Prop :=
  (∀ r b : Byte,
    let iteration : Nat → Nat := fun r =>
      if r.testBit 7 then ((r <<< 1) ^^^ 0x1D) &&& 0xFF else (r <<< 1) &&& 0xFF
    (crc8Update r b).toNat = iteration^[8] (r.toNat ^^^ b.toNat)) ∧
  crc8Update 0x00 0xCF = 0x8E

/-- R66: from `0x00`, offset 0 first, no final step; in a trailer the sequence is `TRL[0..8]`. -/
def Obligations.CrcOfSequence : Prop :=
  crc8 [] = 0x00 ∧ (∀ bytes b, crc8 (bytes ++ [b]) = crc8Update (crc8 bytes) b) ∧
  (∀ t : Trailer, crcBody t = [t[0], t[1], t[2], t[3], t[4], t[5], t[6], t[7], t[8]]) ∧
  crc8 [0xCF, 0x0B, 0xCA, 0xFE, 0x12, 0x34, 0x56, 0x17, 0x00] = 0xF1

/-- Section 1 of 40_crc.md, form (b): the 256-entry table of 95_test_vectors.md section 2.2. -/
def Obligations.CrcTableForm : Prop :=
  crcTable.length = 256 ∧ ∀ r b : Byte, crc8Update r b = crc8UpdateTable r b

/-- Section 1 of 40_crc.md, form (c): feeding the message bits one at a time, bit 7 of each byte first. -/
def Obligations.CrcBitSerialForm : Prop :=
  ∀ bytes : List Byte, crc8 bytes = (bytes.flatMap byteBits).foldl crcBit 0x00

/-- Section 1 of 40_crc.md, form (a): the remainder of M(x)·x^8 divided by G(x) = x^8 + x^4 + x^3 + x^2 + 1. -/
def Obligations.CrcIsPolynomialRemainder : Prop :=
  ∀ bytes : List Byte,
    let poly : List Bool → Polynomial (ZMod 2) := fun bits =>
      bits.foldl (fun p bit => p * Polynomial.X + Polynomial.C (if bit then 1 else 0)) 0
    let G : Polynomial (ZMod 2) :=
      Polynomial.X ^ 8 + Polynomial.X ^ 4 + Polynomial.X ^ 3 + Polynomial.X ^ 2 + 1
    poly (byteBits (crc8 bytes)) = (poly (bytes.flatMap byteBits) * Polynomial.X ^ 8).modByMonic G

/-- Section 3 of 40_crc.md, law (a): linearity over exclusive-or. -/
def Obligations.CrcIsLinear : Prop :=
  (∀ r s a b : Byte, crc8Update (r ^^^ s) (a ^^^ b) = crc8Update r a ^^^ crc8Update s b) ∧
  ∀ A B : List Byte, A.length = B.length → crc8 (List.zipWith (· ^^^ ·) A B) = crc8 A ^^^ crc8 B

/-- Section 3 of 40_crc.md, law (b): appending the CRC gives zero, and ten bytes with good magic are a valid trailer
exactly when the CRC of all ten is zero. -/
def Obligations.AppendedCrcGivesZero : Prop :=
  (∀ A : List Byte, crc8 (A ++ [crc8 A]) = 0x00) ∧
  ∀ t : List Byte, t.length = 10 → t.getD 0 0x00 = 0xCF → (validTrailer t = true ↔ crc8 t = 0x00)

/-- Section 3 of 40_crc.md, laws (c) and (d). -/
def Obligations.CrcDependsOnXorOnly : Prop :=
  (∀ r b r' b' : Byte, r ^^^ b = r' ^^^ b' → crc8Update r b = crc8Update r' b') ∧
  (∀ r : Byte, crc8Update r r = 0x00) ∧ ∀ A : List Byte, crc8 (0x00 :: A) = crc8 A

/-- Section 3 of 40_crc.md, law (e). -/
def Obligations.CrcUpdateIsBijective : Prop :=
  (∀ r : Byte, Function.Bijective fun b => crc8Update r b) ∧
  ∀ b : Byte, Function.Bijective fun r => crc8Update r b

/-- Section 3 of 40_crc.md, law (f): a ten-byte sequence with CRC zero, changed by an error pattern, keeps CRC zero
exactly when the pattern is a multiple of G(x). So every nonzero error confined to 8 consecutive bit positions and every
two-bit error is seen; the three-bit error 1 + x + x^25 is not. -/
def Obligations.CrcErrorDetection : Prop :=
  let bytesOf : BitVec 80 → List Byte := fun e => (List.range 10).map fun i => e.extractLsb' (72 - 8 * i) 8
  let flip : List Byte → BitVec 80 → List Byte := fun t e => List.zipWith (· ^^^ ·) t (bytesOf e)
  ∀ t : List Byte, t.length = 10 → crc8 t = 0x00 →
    (∀ e : BitVec 80, crc8 (flip t e) = 0x00 ↔ multipleOfG (bytesOf e)) ∧
    (∀ (p : Byte) (k : Nat), p ≠ 0x00 → k ≤ 72 → crc8 (flip t (p.setWidth 80 <<< k)) ≠ 0x00) ∧
    (∀ i j : Fin 80, i ≠ j → crc8 (flip t (1#80 <<< i.val ^^^ 1#80 <<< j.val)) ≠ 0x00) ∧
    crc8 (flip t (1#80 ^^^ 1#80 <<< 1 ^^^ 1#80 <<< 25)) = 0x00

/-- R68: `CRC.CLR`. -/
def Obligations.CrcClrResult : Prop :=
  encode .crcClr = 0x00000100 ∧
  (∀ imm8 : Byte, imm8 ≠ 0x00 → ∃ e, decodeCmd (0x00000100 ||| imm8.setWidth 32) = .error e) ∧
  ∀ s : State, exec .crcClr s = .next { s with unit := { s.unit with crcr := 0x00, status := 0x00 } }

/-- R69: `CRC.UPD imm8`, with its corner cases and its example. -/
def Obligations.CrcUpdResult : Prop :=
  (∀ imm8 : Byte, encode (.crcUpd imm8) = 0x00000200 ||| imm8.setWidth 32) ∧
  (∀ (imm8 : Byte) (s : State), exec (.crcUpd imm8) s =
    .next { s with unit := { s.unit with crcr := crc8Update s.unit.crcr imm8, status := 0x00 } }) ∧
  (∀ s : State, exec (.crcUpd s.unit.crcr) s =
    .next { s with unit := { s.unit with crcr := 0x00, status := 0x00 } }) ∧
  ∀ s : State, s.unit.crcr = 0x00 →
    exec (.crcUpd 0x00) s = .next { s with unit := { s.unit with status := 0x00 } } ∧
    exec (.crcUpd 0x41) s = .next { s with unit := { s.unit with crcr := 0x0E, status := 0x00 } }

/-- Section 2 of 40_crc.md (streaming): from a `CRC.CLR` or a reset on, whatever other events stand between, `CRCR` is
the CRC of the `CRC.UPD` bytes in order. -/
def Obligations.StreamingEqualsFunction : Prop :=
  ∀ (s : State) (start : HostEvent) (es : List HostEvent),
    (start = .wr 0x00 0x00000100 ∨ ∃ draws, start = .reset draws) → (∀ e ∈ es, keepsStream e = true) →
    ∃ t, runEvents (start :: es) s = .next t ∧ t.unit.crcr = crc8 (streamedBytes es)

/-! ## The field packer -/

/-- R75, R76, R77: `ENC` whole, with the bytes spelled out: its results where both inputs are in range, and `ERR_RANGE`
alone where one is not. -/
def Obligations.EncResult : Prop :=
  encode .enc = 0x00001000 ∧
  (∀ imm8 : Byte, imm8 ≠ 0x00 → ∃ e, decodeCmd (0x00001000 ||| imm8.setWidth 32) = .error e) ∧
  ∀ s : State,
    let u := s.unit
    let body : List Byte :=
      [0xCF, u.epochIn.extractLsb' 0 8, u.rootIn.extractLsb' 8 8, u.rootIn.extractLsb' 0 8,
       u.tip0In.extractLsb' 4 8, u.tip0In.extractLsb' 0 4 ++ u.tip1In.extractLsb' 8 4, u.tip1In.extractLsb' 0 8,
       u.mac8In, 0x00]
    (u.epochIn.toNat < 256 ∧ u.rootIn.toNat < 65536 →
      ∃ t : Trailer, t.toList = body ++ [crc8 body] ∧
        exec .enc s = .next { s with unit := { u with trl := t, tlen := 10, status := 0x00 } }) ∧
    (256 ≤ u.epochIn.toNat ∨ 65536 ≤ u.rootIn.toNat →
      exec .enc s = .next { s with unit := { u with status := 0x01 } })

/-- Section 3 of 41_pack.md (fixed length), for every value of the parameters `RSVD8` and `W_IN`: a successful `ENC`
leaves ten bytes and `TLEN` = 10, a valid trailer, authentic for its `MAC8_IN`. -/
def Obligations.EncMakesValidTrailers : Prop :=
  ∀ (c : Config) (u : Tcu c.wIn), u.epochIn.toNat < 256 → u.rootIn.toNat < 65536 →
    validTrailer (Tcu.encode c u).trl.toList = true ∧ authenticFor u.mac8In (Tcu.encode c u).trl.toList = true ∧
    (Tcu.encode c u).tlen = 10 ∧ (Tcu.encode c u).trl.toList.length = 10 ∧
    (Tcu.encode c u).trl.toList.getD 8 0x00 = c.rsvd8

/-- Section 3 of 41_pack.md (tip masking): tips that agree modulo 4096 give the same code and the same trailer; no tip
makes `ENC` fail. -/
def Obligations.EncMasksTips : Prop :=
  ∀ (s : State) (a b a' b' : Word), a.toNat % 4096 = a'.toNat % 4096 → b.toNat % 4096 = b'.toNat % 4096 →
    ∃ t t', exec .enc { s with unit := { s.unit with tip0In := a, tip1In := b } } = .next t ∧
      exec .enc { s with unit := { s.unit with tip0In := a', tip1In := b' } } = .next t' ∧
      t.unit.status = t'.unit.status ∧ t.unit.trl = t'.unit.trl ∧ t.unit.tlen = t'.unit.tlen ∧
      (s.unit.epochIn.toNat < 256 → s.unit.rootIn.toNat < 65536 → t.unit.status = 0x00)

/-- Sections 1 of 30_encoding.md and 3 of 41_pack.md: the packed tips as a number, and both round trips. -/
def Obligations.TipsPackLosslessly : Prop :=
  (∀ (w : Nat) (a b : BitVec w), (packTips a b).toNat = a.toNat % 4096 * 4096 + b.toNat % 4096) ∧
  (∀ a b : BitVec 12, unpackTips (packTips a b) = (a, b)) ∧
  ∀ p : BitVec 24, packTips (unpackTips p).1 (unpackTips p).2 = p

/-- Section 7 of 20_memory.md: `ENC` makes its trailer, from inputs of any width, by the seven big-endian
`MemWrite`s over any earlier buffer, and `DEC` unpacks by `MemRead`s. -/
def Obligations.TrailerByMemAccesses : Prop :=
  (∀ (c : Config) (w : Nat) (epoch root tip0 tip1 : BitVec w) (mac8 : Byte) (old : Trailer),
    rangeOk epoch root = true →
    let t8 := memWrite (memWrite (memWrite (memWrite (memWrite (memWrite old
      0 1 0xCF) 1 1 epoch.toNat) 2 2 root.toNat) 4 3 (packTips tip0 tip1).toNat) 7 1 mac8.toNat) 8 1 c.rsvd8.toNat
    packTrailer c epoch root tip0 tip1 mac8 = memWrite t8 9 1 (crc8 (crcBody t8)).toNat) ∧
  ∀ t : Trailer,
    (unpackTrailer t).epoch.toNat = memRead t 1 1 ∧ (unpackTrailer t).root.toNat = memRead t 2 2 ∧
    (unpackTrailer t).tip0.toNat = memRead t 4 3 / 4096 ∧ (unpackTrailer t).tip1.toNat = memRead t 4 3 % 4096

/-- Section 1 of 30_encoding.md: the fields of the 80-bit value `T` of a trailer that `ENC` makes, from inputs of any
width. -/
def Obligations.TrailerAsOneValue : Prop :=
  ∀ (c : Config) (w : Nat) (epoch root tip0 tip1 : BitVec w) (mac8 : Byte), rangeOk epoch root = true →
    let t := packTrailer c epoch root tip0 tip1 mac8
    let T := (trailerValue t).toNat
    T / 2 ^ 72 = 0xCF ∧ T / 2 ^ 64 % 2 ^ 8 = epoch.toNat ∧ T / 2 ^ 48 % 2 ^ 16 = root.toNat ∧
    T / 2 ^ 36 % 2 ^ 12 = tip0.toNat % 4096 ∧ T / 2 ^ 24 % 2 ^ 12 = tip1.toNat % 4096 ∧
    T / 2 ^ 16 % 2 ^ 8 = mac8.toNat ∧ T / 2 ^ 8 % 2 ^ 8 = c.rsvd8.toNat ∧ T % 2 ^ 8 = (crc8 (crcBody t)).toNat

/-- The parameter `W_IN` (92_eei_decisions.md D4; log entry 6): two units of any widths from 17 up, with the same
`RSVD8`, that hold the same numbers and get the same events, every datum for an input register or `TLEN` being
presentable in both, return the same values and hold the same numbers after them; and 65536 is presentable and
refused at every width. -/
def Obligations.InputWidthDoesNotMatter : Prop :=
  (∀ (c c' : Config) (u : Tcu c.wIn) (v : Tcu c'.wIn) (es : List (Event c.wIn)) (es' : List (Event c'.wIn)),
    c.rsvd8 = c'.rsvd8 → u.agrees v → List.Forall₂ Event.agrees es es' →
    (u.afterEvents c es).agrees (v.afterEvents c' es') ∧ Tcu.answersAll c es u = Tcu.answersAll c' es' v) ∧
  (∀ c : Config, ∃ r : BitVec c.wIn, r.toNat = 65536 ∧
    ∀ u : Tcu c.wIn, Tcu.encode c { u with rootIn := r } = { u with rootIn := r, status := 0x01 }) ∧
  ∀ (c : Config) (w w' e r a b n : Nat) (t : Trailer) (m : Byte),
    e < 2 ^ min w w' → r < 2 ^ min w w' → a < 2 ^ min w w' → b < 2 ^ min w w' → n < 2 ^ min w w' →
    rangeOk (BitVec.ofNat w e) (BitVec.ofNat w r) = rangeOk (BitVec.ofNat w' e) (BitVec.ofNat w' r) ∧
    packTrailer c (BitVec.ofNat w e) (BitVec.ofNat w r) (BitVec.ofNat w a) (BitVec.ofNat w b) m =
      packTrailer c (BitVec.ofNat w' e) (BitVec.ofNat w' r) (BitVec.ofNat w' a) (BitVec.ofNat w' b) m ∧
    checkTrailer (BitVec.ofNat w n) t m = checkTrailer (BitVec.ofNat w' n) t m

/-! ## The field unpacker -/

/-- R85, R86, R87: `DEC` whole: the first failing check decides, and on success the fields as numbers. -/
def Obligations.DecResult : Prop :=
  encode .dec = 0x00002000 ∧
  (∀ imm8 : Byte, imm8 ≠ 0x00 → ∃ e, decodeCmd (0x00002000 ||| imm8.setWidth 32) = .error e) ∧
  ∀ s : State,
    let u := s.unit
    let t := u.trl
    let crc := crc8 [t[0], t[1], t[2], t[3], t[4], t[5], t[6], t[7], t[8]]
    let fails (code : Byte) : Prop := exec .dec s = .next { s with unit := { u with status := code } }
    (u.tlen ≠ 10 → fails 0x02) ∧
    (u.tlen = 10 → t[0] ≠ 0xCF → fails 0x03) ∧
    (u.tlen = 10 → t[0] = 0xCF → crc ≠ t[9] → fails 0x04) ∧
    (u.tlen = 10 → t[0] = 0xCF → crc = t[9] → u.mac8In ≠ t[7] → fails 0x05) ∧
    (u.tlen = 10 → t[0] = 0xCF → crc = t[9] → u.mac8In = t[7] →
      ∃ (root : BitVec 16) (tip0 tip1 : BitVec 12),
        root.toNat = t[2].toNat * 256 + t[3].toNat ∧
        tip0.toNat = t[4].toNat * 16 + t[5].toNat / 16 ∧
        tip1.toNat = t[5].toNat % 16 * 256 + t[6].toNat ∧
        exec .dec s = .next { s with unit :=
          { u with epochOut := t[1], rootOut := root, tip0Out := tip0, tip1Out := tip1, status := 0x00 } })

/-- Section 3 of 42_unpack.md (errors before cryptography): `ERR_LENGTH`, `ERR_MAGIC` and `ERR_CRC` do not depend on
`MAC8_IN`. -/
def Obligations.EarlyErrorsIgnoreMac : Prop :=
  ∀ (s : State) (m m' : Byte),
    ∃ t t', exec .dec { s with unit := { s.unit with mac8In := m } } = .next t ∧
      exec .dec { s with unit := { s.unit with mac8In := m' } } = .next t' ∧
      (t.unit.status ∈ [0x02, 0x03, 0x04] → t'.unit.status = t.unit.status)

/-- Section 3 of 42_unpack.md (round trip), for every `RSVD8` and every `W_IN`: `DEC` of what `ENC` left, with `TRL`,
`TLEN` and `MAC8_IN` unchanged, returns the inputs, the tips modulo 4096. -/
def Obligations.EncThenDecRoundTrip : Prop :=
  (∀ (c : Config) (u v : Tcu c.wIn), u.epochIn.toNat < 256 → u.rootIn.toNat < 65536 →
    v.trl = (Tcu.encode c u).trl → v.tlen = (Tcu.encode c u).tlen → v.mac8In = u.mac8In →
    (Tcu.decode v).status = 0x00 ∧ (Tcu.decode v).epochOut.toNat = u.epochIn.toNat ∧
    (Tcu.decode v).rootOut.toNat = u.rootIn.toNat ∧ (Tcu.decode v).tip0Out.toNat = u.tip0In.toNat % 4096 ∧
    (Tcu.decode v).tip1Out.toNat = u.tip1In.toNat % 4096) ∧
  ∀ s : State, s.unit.epochIn.toNat < 256 → s.unit.rootIn.toNat < 65536 →
    ∃ t, runEvents [.wr 0x00 0x00001000, .wr 0x00 0x00002000] s = .next t ∧ t.unit.status = 0x00 ∧
      t.unit.epochOut.toNat = s.unit.epochIn.toNat ∧ t.unit.rootOut.toNat = s.unit.rootIn.toNat ∧
      t.unit.tip0Out.toNat = s.unit.tip0In.toNat % 4096 ∧ t.unit.tip1Out.toNat = s.unit.tip1In.toNat % 4096

/-- Section 3 of 42_unpack.md (what corruption does), from an authentic trailer. A change confined to one byte gives
`ERR_MAGIC` for byte 0 and `ERR_CRC` for bytes 1 to 9; two flipped bits within bytes 1 to 9 give `ERR_CRC`; another
`MAC8_IN` gives `ERR_MAC`. Any other trailer gives `ERR_MAGIC` where byte 0 differs, else `ERR_CRC` unless the difference
is a multiple of G(x), else `ERR_MAC` where byte 7 differs, else `OK` with that trailer's fields, an undetected error:
so `ERR_MAC` where byte 7 is changed and byte 9 recomputed, and `OK` for bits 0 and 1 of byte 9 with bit 1 of byte 6. -/
def Obligations.CorruptedTrailerOutcomes : Prop :=
  ∀ s : State, s.unit.tlen = 10 → authenticFor s.unit.mac8In s.unit.trl.toList = true →
    let ends (t' : Trailer) (code : Byte) : Prop :=
      exec .dec { s with unit := { s.unit with trl := t' } } =
        .next { s with unit := { s.unit with trl := t', status := code } }
    let passes (t' : Trailer) : Prop :=
      exec .dec { s with unit := { s.unit with trl := t' } } =
        .next { s with unit := { s.unit with
          trl := t', status := 0x00, epochOut := t'[1], rootOut := t'[2] ++ t'[3],
          tip0Out := t'[4] ++ t'[5].extractLsb' 4 4, tip1Out := t'[5].extractLsb' 0 4 ++ t'[6] } }
    (∀ (i : Fin 10) (b : Byte), b ≠ s.unit.trl[i.val] →
      ends (s.unit.trl.set i.val b) (if i.val = 0 then 0x03 else 0x04)) ∧
    (∀ (i j : Fin 10) (k l : Fin 8), i.val ≠ 0 → j.val ≠ 0 → i ≠ j →
      ends ((s.unit.trl.set i.val (s.unit.trl[i.val] ^^^ 1#8 <<< k.val)).set j.val
        (s.unit.trl[j.val] ^^^ 1#8 <<< l.val)) 0x04) ∧
    (∀ m : Byte, m ≠ s.unit.mac8In →
      exec .dec { s with unit := { s.unit with mac8In := m } } =
        .next { s with unit := { s.unit with mac8In := m, status := 0x05 } }) ∧
    (∀ t' : Trailer,
      let difference := List.zipWith (· ^^^ ·) s.unit.trl.toList t'.toList
      (t'[0] ≠ s.unit.trl[0] → ends t' 0x03) ∧
      (t'[0] = s.unit.trl[0] → ¬multipleOfG difference → ends t' 0x04) ∧
      (t'[0] = s.unit.trl[0] → multipleOfG difference → t'[7] ≠ s.unit.trl[7] → ends t' 0x05) ∧
      (t'[0] = s.unit.trl[0] → multipleOfG difference → t'[7] = s.unit.trl[7] → passes t')) ∧
    (∀ b : Byte, b ≠ s.unit.trl[7] →
      ends ((s.unit.trl.set 7 b).set 9 (crc8 (crcBody (s.unit.trl.set 7 b)))) 0x05) ∧
    passes ((s.unit.trl.set 6 (s.unit.trl[6] ^^^ 0x02)).set 9 (s.unit.trl[9] ^^^ 0x03))

/-- Section 1 of 30_encoding.md (valid trailers): one valid trailer for each choice of bytes 1 to 8, and `DEC` accepts
exactly the authentic ones. -/
def Obligations.ValidTrailersByBytesOneToEight : Prop :=
  (∀ middle : List Byte, middle.length = 8 → ∃! crc : Byte, validTrailer (0xCF :: middle ++ [crc]) = true) ∧
  (∀ t : List Byte, validTrailer t = true →
    ∃ middle crc, middle.length = 8 ∧ t = 0xCF :: middle ++ [crc]) ∧
  ∀ s : State, ∃ t, exec .dec s = .next t ∧
    (t.unit.status = 0x00 ↔ s.unit.tlen = 10 ∧ authenticFor s.unit.mac8In s.unit.trl.toList = true)

/-! ## Host programs and the wrappers -/

/-- Section 4 of 30_encoding.md (pseudo-instructions): after `CRC.OF` an `RD CRCR` returns the CRC; `CRC.BYTES`
continues from whatever `CRCR` holds; `LDTRL` loads the
first ten bytes and declares the length; `SETENC` sets the five inputs; nothing else of the unit changes. -/
def Obligations.PseudoInstructionsExpand : Prop :=
  (∀ (bytes : List Byte) (s : State),
    ∃ t, runEvents (crcOf bytes ++ [.rd 0x02]) s = .next t ∧
      t.reads = s.reads ++ [(crc8 bytes).setWidth 32] ∧ t.unit = { s.unit with crcr := crc8 bytes, status := 0x00 }) ∧
  (∀ (bytes : List Byte) (s : State),
    runEvents (crcBytes bytes) s = .next { s with unit := { s.unit with
      crcr := bytes.foldl crc8Update s.unit.crcr, status := if bytes = [] then s.unit.status else 0x00 } }) ∧
  (∀ (bytes : List Byte) (s : State),
    ∃ t, runEvents (ldtrl bytes) s = .next t ∧
      (∀ i : Fin 10, t.unit.trl[i.val] = bytes.getD i.val s.unit.trl[i.val]) ∧
      t = { s with unit := { s.unit with trl := t.unit.trl, tlen := BitVec.ofNat 32 bytes.length } }) ∧
  ∀ (e r t0 t1 m : Word) (s : State),
    runEvents (setenc e r t0 t1 m) s = .next { s with unit := { s.unit with
      epochIn := e, rootIn := r, tip0In := t0, tip1In := t1, mac8In := m.setWidth 8 } }

/-- Section 3 of 41_pack.md (the source's `encode`): for every `Mac8` and every integer arguments, `RangeError` exactly
where the epoch or the root id is out of range, else the ten bytes. -/
def Obligations.EncodeWrapperMeetsSource : Prop :=
  ∀ (mac : Mac) (e r a b : Int) (key message : List Byte) (s : State),
    (¬(0 ≤ e ∧ e < 256 ∧ 0 ≤ r ∧ r < 65536) →
      ∃ s', encodeCall mac e r a b key message s = .next (.error .rangeError, s')) ∧
    (0 ≤ e → e < 256 → 0 ≤ r → r < 65536 →
      let packed := (a % 4096).toNat * 4096 + (b % 4096).toNat
      let body : List Byte := [0xCF, BitVec.ofInt 8 e, BitVec.ofInt 8 (r / 256), BitVec.ofInt 8 r,
        BitVec.ofNat 8 (packed / 65536), BitVec.ofNat 8 (packed / 256), BitVec.ofNat 8 packed, mac key message, 0x00]
      ∃ s', encodeCall mac e r a b key message s = .next (.ok (body ++ [crc8 body]), s'))

/-- Section 3 of 42_unpack.md (the source's `decode`): for every `Mac8`, every candidate that can be declared and every
state, the source's validation sequence, with the fields as numbers. -/
def Obligations.DecodeWrapperMeetsSource : Prop :=
  ∀ (mac : Mac) (trailer key message : List Byte) (s : State),
    let at_ (i : Nat) : Byte := trailer.getD i 0x00
    let answers (x : Except SourceError Decoded) : Prop := ∃ s', decodeCall mac trailer key message s = .next (x, s')
    (trailer.length ≠ 10 → answers (.error (.formatError .wrongLength))) ∧
    (trailer.length = 10 → at_ 0 ≠ 0xCF → answers (.error (.formatError .badMagic))) ∧
    (trailer.length = 10 → at_ 0 = 0xCF → crc8 (trailer.take 9) ≠ at_ 9 → answers (.error .integrityError)) ∧
    (trailer.length = 10 → at_ 0 = 0xCF → crc8 (trailer.take 9) = at_ 9 → mac key message ≠ at_ 7 →
      answers (.error .authenticationError)) ∧
    (trailer.length = 10 → at_ 0 = 0xCF → crc8 (trailer.take 9) = at_ 9 → mac key message = at_ 7 →
      answers (.ok ⟨(at_ 1).toNat, (at_ 2).toNat * 256 + (at_ 3).toNat,
        (at_ 4).toNat * 16 + (at_ 5).toNat / 16, (at_ 5).toNat % 16 * 256 + (at_ 6).toNat⟩))

/-- Section 3 of 42_unpack.md (round trip at the level of the wrappers): with one `Mac8` at both ends, `decode` on any
unit returns exactly what `encode` on any unit was given, through ten bytes. -/
def Obligations.SourceRoundTrip : Prop :=
  ∀ (mac : Mac) (e r a b : Nat) (key message : List Byte) (s s' : State),
    e < 256 → r < 65536 → a < 4096 → b < 4096 →
    ∃ bytes s1 s2, encodeCall mac e r a b key message s = .next (.ok bytes, s1) ∧ bytes.length = 10 ∧
      decodeCall mac bytes key message s' =
        .next (.ok { epochS := e, pRootId := r, tip0 := a, tip1 := b }, s2)

/-- Section 3 of 42_unpack.md (errors before cryptography): the two-pass wrapper answers as the one-pass wrapper, and
where it answers a format or integrity error it does so for every `Mac8`. The transactions of the two passes, which
R92 gives in words, are the model's reading (log entry 14). -/
def Obligations.TwoPassDecodeAgrees : Prop :=
  ∀ (mac mac' : Mac) (trailer key message : List Byte) (s : State),
    ∃ x x' s1 s2 s3, decodeCall mac trailer key message s = .next (x, s1) ∧
      decodeTwoPass mac trailer key message s = .next (x, s2) ∧
      decodeTwoPass mac' trailer key message s = .next (x', s3) ∧
      ((∃ why, x = .error (.formatError why)) ∨ x = .error .integrityError → x' = x ∧ s3 = s2)

/-! ## Invariants of one step that runs of many steps rest on -/

/-- Section 2 of 40_crc.md (streaming), as an invariant of one step: while `CRCR` holds the CRC of the message `m`, a
step whose event is neither `CRC.CLR` nor a reset leaves the CRC of `m` with that event's `CRC.UPD` byte, if it has one. -/
def Obligations.StepExtendsStreamedCrc : Prop :=
  ∀ (s t : State) (e : HostEvent) (rest : List HostEvent) (m : List Byte),
    s.pending = e :: rest → keepsStream e = true → s.unit.crcr = crc8 m → step s = .next t →
    t.unit.crcr = crc8 (m ++ streamedBytes [e])

/-- Section 2 of 70_reset_and_hazards.md with section 4 of 10_state.md, as an invariant of one step of two machines that
get the same event, but for a reset's draws, after the same events `es`: if they agree on the registers the host has
written since reset that `ENC` needs, and on the registers it has loaded since the latest reset or `ENC`, then after the
step they agree on those registers again. -/
def Obligations.StepKeepsHostWrittenAgreement : Prop :=
  ∀ (s s' t t' : State) (e e' : HostEvent) (rest rest' es : List HostEvent),
    let agree (u v : UnitRegs) (seen : List HostEvent) : Prop :=
      (∀ r ∈ readSet .enc, (latestWrite r seen).isSome = true → u.get r = v.get r) ∧
      (∀ r, r.access = .readWrite → (latestLoad r seen).isSome = true → u.get r = v.get r)
    s.pending = e :: rest → s'.pending = e' :: rest' →
    (e' = e ∨ ∃ draws draws', e = .reset draws ∧ e' = .reset draws') →
    agree s.unit s'.unit es → step s = .next t → step s' = .next t' →
    agree t.unit t'.unit (es ++ [e])
end

