-- ==== Sys2Proof/Laws/State.lean ====
section
/-! SUPPORT. One lemma per field per named update of the state, true by rfl. -/

namespace Sys2Proof.Machine

section StateUpdates

variable (f : UnitRegs → UnitRegs) (v : Word) (w : Word) (d : Draws Config.tcu.wIn) (s : State)

@[simp] theorem State.mapUnit_unit : (s.mapUnit f).unit = f s.unit := rfl
@[simp] theorem State.mapUnit_pending : (s.mapUnit f).pending = s.pending := rfl
@[simp] theorem State.mapUnit_reads : (s.mapUnit f).reads = s.reads := rfl

@[simp] theorem State.note_unit : (s.note v).unit = s.unit := rfl
@[simp] theorem State.note_pending : (s.note v).pending = s.pending := rfl
@[simp] theorem State.note_reads : (s.note v).reads = s.reads ++ [v] := rfl

@[simp] theorem State.issueCommand_unit : (s.issueCommand w).unit = s.unit := rfl
@[simp] theorem State.issueCommand_pending :
    (s.issueCommand w).pending = .wr Reg.cmd.number w :: s.pending := rfl
@[simp] theorem State.issueCommand_reads : (s.issueCommand w).reads = s.reads := rfl

@[simp] theorem State.resetWith_unit : (State.resetWith d).unit = Tcu.resetWith d := rfl
@[simp] theorem State.resetWith_pending : (State.resetWith d).pending = [] := rfl
@[simp] theorem State.resetWith_reads : (State.resetWith d).reads = [] := rfl

end StateUpdates

section TcuUpdates

variable {w : Nat} (c : Code) (d : Draws w) (x : Fields) (u : Tcu w)

@[simp] theorem Tcu.raise_eq : u.raise c = u.setCode c := rfl
@[simp] theorem Tcu.succeed_eq : u.succeed = u.setCode .ok := rfl

@[simp] theorem Tcu.setCode_status : (u.setCode c).status = statusOf c := rfl
@[simp] theorem Tcu.setCode_crcr : (u.setCode c).crcr = u.crcr := rfl
@[simp] theorem Tcu.setCode_mac8In : (u.setCode c).mac8In = u.mac8In := rfl
@[simp] theorem Tcu.setCode_epochIn : (u.setCode c).epochIn = u.epochIn := rfl
@[simp] theorem Tcu.setCode_rootIn : (u.setCode c).rootIn = u.rootIn := rfl
@[simp] theorem Tcu.setCode_tip0In : (u.setCode c).tip0In = u.tip0In := rfl
@[simp] theorem Tcu.setCode_tip1In : (u.setCode c).tip1In = u.tip1In := rfl
@[simp] theorem Tcu.setCode_tlen : (u.setCode c).tlen = u.tlen := rfl
@[simp] theorem Tcu.setCode_epochOut : (u.setCode c).epochOut = u.epochOut := rfl
@[simp] theorem Tcu.setCode_rootOut : (u.setCode c).rootOut = u.rootOut := rfl
@[simp] theorem Tcu.setCode_tip0Out : (u.setCode c).tip0Out = u.tip0Out := rfl
@[simp] theorem Tcu.setCode_tip1Out : (u.setCode c).tip1Out = u.tip1Out := rfl
@[simp] theorem Tcu.setCode_trl : (u.setCode c).trl = u.trl := rfl

@[simp] theorem Tcu.putFields_status : (u.putFields x).status = u.status := rfl
@[simp] theorem Tcu.putFields_crcr : (u.putFields x).crcr = u.crcr := rfl
@[simp] theorem Tcu.putFields_mac8In : (u.putFields x).mac8In = u.mac8In := rfl
@[simp] theorem Tcu.putFields_epochIn : (u.putFields x).epochIn = u.epochIn := rfl
@[simp] theorem Tcu.putFields_rootIn : (u.putFields x).rootIn = u.rootIn := rfl
@[simp] theorem Tcu.putFields_tip0In : (u.putFields x).tip0In = u.tip0In := rfl
@[simp] theorem Tcu.putFields_tip1In : (u.putFields x).tip1In = u.tip1In := rfl
@[simp] theorem Tcu.putFields_tlen : (u.putFields x).tlen = u.tlen := rfl
@[simp] theorem Tcu.putFields_epochOut : (u.putFields x).epochOut = x.epoch := rfl
@[simp] theorem Tcu.putFields_rootOut : (u.putFields x).rootOut = x.root := rfl
@[simp] theorem Tcu.putFields_tip0Out : (u.putFields x).tip0Out = x.tip0 := rfl
@[simp] theorem Tcu.putFields_tip1Out : (u.putFields x).tip1Out = x.tip1 := rfl
@[simp] theorem Tcu.putFields_trl : (u.putFields x).trl = u.trl := rfl

@[simp] theorem Tcu.resetWith_status : (Tcu.resetWith d).status = 0x00 := rfl
@[simp] theorem Tcu.resetWith_crcr : (Tcu.resetWith d).crcr = 0x00 := rfl
@[simp] theorem Tcu.resetWith_mac8In : (Tcu.resetWith d).mac8In = d.mac8In := rfl
@[simp] theorem Tcu.resetWith_epochIn : (Tcu.resetWith d).epochIn = d.epochIn := rfl
@[simp] theorem Tcu.resetWith_rootIn : (Tcu.resetWith d).rootIn = d.rootIn := rfl
@[simp] theorem Tcu.resetWith_tip0In : (Tcu.resetWith d).tip0In = d.tip0In := rfl
@[simp] theorem Tcu.resetWith_tip1In : (Tcu.resetWith d).tip1In = d.tip1In := rfl
@[simp] theorem Tcu.resetWith_tlen : (Tcu.resetWith d).tlen = 0 := rfl
@[simp] theorem Tcu.resetWith_epochOut : (Tcu.resetWith d).epochOut = d.epochOut := rfl
@[simp] theorem Tcu.resetWith_rootOut : (Tcu.resetWith d).rootOut = d.rootOut := rfl
@[simp] theorem Tcu.resetWith_tip0Out : (Tcu.resetWith d).tip0Out = d.tip0Out := rfl
@[simp] theorem Tcu.resetWith_tip1Out : (Tcu.resetWith d).tip1Out = d.tip1Out := rfl
@[simp] theorem Tcu.resetWith_trl : (Tcu.resetWith d).trl = d.trl := rfl

end TcuUpdates

/-! Each code as the byte `STATUS` then holds (R59). -/

@[simp] theorem statusOf_ok : statusOf .ok = 0x00 := by decide
@[simp] theorem statusOf_errRange : statusOf .errRange = 0x01 := by decide
@[simp] theorem statusOf_errLength : statusOf .errLength = 0x02 := by decide
@[simp] theorem statusOf_errMagic : statusOf .errMagic = 0x03 := by decide
@[simp] theorem statusOf_errCrc : statusOf .errCrc = 0x04 := by decide
@[simp] theorem statusOf_errMac : statusOf .errMac = 0x05 := by decide
@[simp] theorem statusOf_errIllegal : statusOf .errIllegal = 0x06 := by decide

/-- Reporting a code leaves a legal `STATUS` (R19, R99). -/
theorem Tcu.setCode_statusWf {w : Nat} (c : Code) (u : Tcu w) : (u.setCode c).statusWf = true := by
  cases c <;> simp [Tcu.statusWf, Tcu.statusReserved, Tcu.codeBits] <;> decide

end Sys2Proof.Machine
end

