-- ==== Sys2Proof/Laws/Ops.lean ====
section
/-! SUPPORT. What the register map, register reads and writes, and the outcome chaining can do. -/

namespace Sys2Proof.Machine

/-! ## The register map (R32) -/

/-- A register's number names it. -/
@[simp] theorem Reg.ofNumber_number (r : Reg) : Reg.ofNumber r.number = some r := by
  cases r with
  | trl i => revert i; decide
  | _ => rfl

/-- A number names one register only. -/
theorem Reg.number_of_ofNumber {n : RegNum} {r : Reg} (h : Reg.ofNumber n = some r) : n = r.number := by
  have key : ∀ k : Fin 256, ∀ q, Reg.ofNumber (BitVec.ofFin k) = some q → BitVec.ofFin k = q.number := by
    decide +kernel
  exact key n.toFin r h

theorem Reg.ofNumber_eq_some {n : RegNum} {r : Reg} : Reg.ofNumber n = some r ↔ n = r.number :=
  ⟨Reg.number_of_ofNumber, fun h => h ▸ Reg.ofNumber_number r⟩

theorem Reg.number_injective {r q : Reg} (h : r.number = q.number) : r = q := by
  have := congrArg Reg.ofNumber h
  simpa using this

/-- A register the host may write is not `CMD`. -/
theorem Reg.number_ne_cmd {r : Reg} (h : r ≠ .cmd) : r.number ≠ Reg.cmd.number :=
  fun e => h (Reg.number_injective e)

/-! ## Register reads and writes (R31, R33, R34) -/

/-- A `WR` to a register the host may not write changes nothing. -/
theorem Tcu.put_of_not_readWrite {w : Nat} {r : Reg} (h : r.access ≠ .readWrite) (d : Word) (u : Tcu w) :
    u.put r d = u := by
  cases r <;> first | rfl | exact absurd rfl h

/-- A `WR` stores the low bits of its datum. -/
theorem Tcu.get_put_same {c : Config} {r : Reg} (h : r.access = .readWrite) (d : Word) (u : Tcu c.wIn) :
    ((u.put r d).get r).toNat = d.toNat % 2 ^ r.width c := by
  have hd : ∀ k, d.toNat % k < 4294967296 := fun k => Nat.lt_of_le_of_lt (Nat.mod_le _ _) d.isLt
  cases r with
  | trl i =>
    simp [Tcu.put, Tcu.get, zext32, cut, Reg.width, Nat.mod_eq_of_lt (hd _)]
  | _ =>
    first
    | exact absurd h (by decide)
    | simp [Tcu.put, Tcu.get, zext32, cut, Reg.width, Nat.mod_eq_of_lt (hd _)]

/-- A `WR` to one register leaves every other as it was. -/
theorem Tcu.get_put_other {w : Nat} {r q : Reg} (h : q ≠ r) (d : Word) (u : Tcu w) : (u.put r d).get q = u.get q := by
  cases r <;> cases q <;> first | rfl | exact absurd rfl h | skip
  rename_i i j
  have hij : i.val ≠ j.val := fun e => h (by rw [Fin.ext e])
  simp [Tcu.put, Tcu.get, Vector.getElem_set_ne, hij]

@[simp] theorem Tcu.hostRead_number {w : Nat} (r : Reg) (u : Tcu w) : u.hostRead r.number = u.get r := by
  simp [Tcu.hostRead]

@[simp] theorem Tcu.hostWrite_number {w : Nat} (r : Reg) (d : Word) (u : Tcu w) :
    u.hostWrite r.number d = u.put r d := by
  simp [Tcu.hostWrite]

/-- No write to a numbered register touches `STATUS` (R31). -/
@[simp] theorem Tcu.put_status {w : Nat} (r : Reg) (d : Word) (u : Tcu w) : (u.put r d).status = u.status := by
  cases r <;> rfl

@[simp] theorem Tcu.hostWrite_status {w : Nat} (n : RegNum) (d : Word) (u : Tcu w) :
    (u.hostWrite n d).status = u.status := by
  unfold Tcu.hostWrite
  split <;> simp

/-! ## Chaining outcomes -/

@[simp] theorem andThen_next {α β : Type} (a : α) (f : α → Host.Outcome β Fault Refusal) :
    andThen (.next a) f = f a := rfl

@[simp] theorem runEvents_nil (s : State) : runEvents [] s = .next s := rfl

@[simp] theorem runEvents_cons (e : HostEvent) (es : List HostEvent) (s : State) :
    runEvents (e :: es) s = andThen (transact e s) (runEvents es) := rfl

/-- Events run one list after the other. -/
theorem runEvents_append (es es' : List HostEvent) (s : State) :
    runEvents (es ++ es') s = andThen (runEvents es s) (runEvents es') := by
  induction es generalizing s with
  | nil => rfl
  | cons e es ih =>
    simp only [List.cons_append, runEvents_cons]
    cases transact e s with
    | next t => simpa using ih t
    | fault r => rfl
    | refused r => rfl

end Sys2Proof.Machine
end

