-- ==== Sys2Proof/Laws/Commands.lean ====
section
/-! SUPPORT. What each command, each event and each step can do, said once: the state after it as a plain function of
the state before. -/

namespace Sys2Proof.Machine

/-! ## Commands -/

@[simp] theorem exec_crcClr (s : State) : exec .crcClr s = .next (s.mapUnit Tcu.crcClr) := rfl
@[simp] theorem exec_crcUpd (b : Byte) (s : State) : exec (.crcUpd b) s = .next (s.mapUnit (Tcu.crcUpd b)) := rfl
@[simp] theorem exec_enc (s : State) : exec .enc s = .next (s.mapUnit (Tcu.encode Config.tcu)) := rfl
@[simp] theorem exec_dec (s : State) : exec .dec s = .next (s.mapUnit Tcu.decode) := rfl

/-- `ENC` with both inputs in range, at any configuration. -/
theorem Tcu.encode_of_rangeOk {c : Config} {u : Tcu c.wIn} (h : rangeOk u.epochIn u.rootIn = true) :
    u.encode c = { u with
      trl := packTrailer c u.epochIn u.rootIn u.tip0In u.tip1In u.mac8In, tlen := 10#c.wIn, status := 0x00 } := by
  simp [Tcu.encode, h, Tcu.setCode, Config.trailerLen]

/-- `ENC` with an input out of range. -/
theorem Tcu.encode_of_not_rangeOk {c : Config} {u : Tcu c.wIn} (h : rangeOk u.epochIn u.rootIn = false) :
    u.encode c = { u with status := 0x01 } := by
  simp [Tcu.encode, h, Tcu.setCode]

/-- `DEC` of a candidate that passes all four checks. -/
theorem Tcu.decode_of_ok {w : Nat} {u : Tcu w} (h : checkTrailer u.tlen u.trl u.mac8In = .ok) :
    u.decode = { u with
      epochOut := (unpackTrailer u.trl).epoch, rootOut := (unpackTrailer u.trl).root,
      tip0Out := (unpackTrailer u.trl).tip0, tip1Out := (unpackTrailer u.trl).tip1, status := 0x00 } := by
  simp [Tcu.decode, h, Tcu.setCode, Tcu.putFields]

/-- `DEC` of a candidate that fails a check. -/
theorem Tcu.decode_of_ne_ok {w : Nat} {u : Tcu w} (h : checkTrailer u.tlen u.trl u.mac8In ≠ .ok) :
    u.decode = u.setCode (checkTrailer u.tlen u.trl u.mac8In) := by
  simp [Tcu.decode, h]

theorem rangeOk_iff {w : Nat} {e r : BitVec w} : rangeOk e r = true ↔ e.toNat < 256 ∧ r.toNat < 65536 := by
  simp [rangeOk]

/-! ## The machine is the unit of `AnyConfig.lean` at `Config.tcu` -/

theorem exec_eq (i : Instr) (s : State) : exec i s = .next (s.mapUnit (Tcu.afterCommand Config.tcu i)) := by
  cases i <;> rfl

theorem command_eq (w : Word) (s : State) : command w s = .next (s.mapUnit (Tcu.afterWord Config.tcu w)) := by
  unfold command
  cases h : decodeCmd w with
  | ok i => simp [exec_eq, State.mapUnit, Tcu.afterWord, h]
  | error e => simp [illegalCommand, State.mapUnit, Tcu.afterWord, h]

/-- An event changes the unit and what the host has read, and nothing of what the host has still to issue. -/
theorem transact_eq (e : HostEvent) (s : State) :
    transact e s =
      .next { s with unit := s.unit.afterEvent Config.tcu e, reads := s.reads ++ s.unit.answers e } := by
  cases e with
  | wr n d =>
    by_cases h : n = Reg.cmd.number
    · simp [transact, hostWr, h, command_eq, State.mapUnit, Tcu.afterEvent, Tcu.answers]
    · simp [transact, hostWr, h, State.mapUnit, Tcu.afterEvent, Tcu.answers]
  | rd n => rfl
  | reset d => simp [transact, hostReset, State.mapUnit, Tcu.afterEvent, Tcu.answers]

/-- What a step can do. -/
theorem step_cases (s : State) :
    (s.pending = [] ∧ step s = .next s) ∨
    ∃ e rest, s.pending = e :: rest ∧
      step s = .next {
        unit := s.unit.afterEvent Config.tcu e, pending := rest, reads := s.reads ++ s.unit.answers e } := by
  unfold step nextEvent
  cases h : s.pending with
  | nil => exact .inl ⟨rfl, rfl⟩
  | cons e rest => exact .inr ⟨e, rest, rfl, by simp [transact_eq]⟩

/-! ## Lists of events, at any configuration -/

section Lists

variable {c : Config} (e : Event c.wIn) (es es' : List (Event c.wIn)) (u : Tcu c.wIn)

@[simp] theorem Tcu.afterEvents_nil : u.afterEvents c [] = u := rfl

@[simp] theorem Tcu.afterEvents_cons : u.afterEvents c (e :: es) = (u.afterEvent c e).afterEvents c es := rfl

theorem Tcu.afterEvents_append : u.afterEvents c (es ++ es') = (u.afterEvents c es).afterEvents c es' :=
  List.foldl_append

@[simp] theorem Tcu.answersAll_nil : Tcu.answersAll c [] u = [] := rfl

@[simp] theorem Tcu.answersAll_cons :
    Tcu.answersAll c (e :: es) u = u.answers e ++ Tcu.answersAll c es (u.afterEvent c e) := rfl

end Lists

/-- A list of events changes the unit and what the host has read. -/
theorem runEvents_eq (es : List HostEvent) (s : State) :
    runEvents es s = .next { s with
      unit := s.unit.afterEvents Config.tcu es, reads := s.reads ++ Tcu.answersAll Config.tcu es s.unit } := by
  induction es generalizing s with
  | nil => simp
  | cons e es ih => simp [transact_eq, ih]

end Sys2Proof.Machine
end

