-- ==== Sys2Proof/Laws/Crc.lean ====
section
/-! SUPPORT. Small lemmas of the CRC-8 generator, and that it tests divisibility by G(x). -/

namespace Sys2Proof.Machine

/-- One iteration is linear over exclusive-or. -/
theorem crcShift_xor (r s : Byte) : crcShift (r ^^^ s) = crcShift r ^^^ crcShift s := by
  have h : (r ^^^ s).msb = (r.msb ^^ s.msb) := by simp
  unfold crcShift
  rw [h]
  cases r.msb <;> cases s.msb <;> simp [BitVec.shiftLeft_xor_distrib] <;>
    (apply BitVec.eq_of_getLsbD_eq; intro i hi; simp [Bool.xor_comm, Bool.xor_left_comm])

@[simp] theorem crcShift_zero : crcShift 0x00 = 0x00 := by decide

theorem crcShifts_xor (n : Nat) (r s : Byte) : crcShifts n (r ^^^ s) = crcShifts n r ^^^ crcShifts n s := by
  induction n generalizing r s with
  | zero => rfl
  | succ n ih => simp [crcShifts, crcShift_xor, ih]

@[simp] theorem crcShifts_zero (n : Nat) : crcShifts n 0x00 = 0x00 := by
  induction n with
  | zero => rfl
  | succ n ih => rw [crcShifts, crcShift_zero, ih]

theorem crcShifts_add (m n : Nat) (r : Byte) : crcShifts (m + n) r = crcShifts n (crcShifts m r) := by
  induction m generalizing r with
  | zero => simp [crcShifts]
  | succ m ih => rw [Nat.add_right_comm]; exact ih (crcShift r)

@[simp] theorem crc8_nil : crc8 [] = 0x00 := rfl

/-- The running register after more bytes. -/
theorem crc8_append_foldl (a b : List Byte) : crc8 (a ++ b) = b.foldl crc8Update (crc8 a) := List.foldl_append

/-! ## Bytes as polynomials over GF(2) -/

open Polynomial in
/-- G(x), as `multipleOfG` writes it. -/
noncomputable def polyG : Polynomial (ZMod 2) := X ^ 8 + X ^ 4 + X ^ 3 + X ^ 2 + 1

/-- The bits of a byte sequence as a polynomial, after the polynomial `p`. -/
noncomputable def polyFrom (p : Polynomial (ZMod 2)) (bits : List Bool) : Polynomial (ZMod 2) :=
  bits.foldl (fun p bit => p * Polynomial.X + Polynomial.C (if bit then 1 else 0)) p

theorem multipleOfG_iff (bytes : List Byte) :
    multipleOfG bytes ↔ polyG ∣ polyFrom 0 (bytes.flatMap byteBits) := Iff.rfl

theorem polyFrom_append (p : Polynomial (ZMod 2)) (a b : List Bool) : polyFrom p (a ++ b) = polyFrom (polyFrom p a) b :=
  List.foldl_append

theorem polyFrom_byte (p : Polynomial (ZMod 2)) (b : Byte) :
    polyFrom p (byteBits b) = p * Polynomial.X ^ 8 + polyFrom 0 (byteBits b) := by
  simp only [polyFrom, byteBits, List.foldl_cons, List.foldl_nil]
  ring

theorem polyFrom_xor (r b : Byte) :
    polyFrom 0 (byteBits (r ^^^ b)) = polyFrom 0 (byteBits r) + polyFrom 0 (byteBits b) := by
  have key : ∀ x y : Bool, (Polynomial.C (if (x ^^ y) = true then 1 else 0) : Polynomial (ZMod 2)) =
      Polynomial.C (if x = true then 1 else 0) + Polynomial.C (if y = true then 1 else 0) := by
    intro x y
    rw [← Polynomial.C_add]
    exact congrArg _ (by revert x y; decide)
  simp only [polyFrom, byteBits, List.foldl_cons, List.foldl_nil, BitVec.getLsbD_xor, key]
  ring

/-- One iteration of R65 multiplies by x modulo G(x). -/
theorem polyG_dvd_shift (r : Byte) :
    polyG ∣ polyFrom 0 (byteBits (crcShift r)) - Polynomial.X * polyFrom 0 (byteBits r) := by
  have bits : ∀ k : Fin 256, byteBits (BitVec.ofFin k <<< 1) = (byteBits (BitVec.ofFin k)).tail ++ [false] ∧
      byteBits Config.poly = [false, false, false, true, true, true, false, true] := by
    decide +kernel
  obtain ⟨h1, h2⟩ := bits r.toFin
  change byteBits (r <<< 1) = _ at h1
  have top : r.msb = r.getLsbD 7 := by simp [BitVec.msb_eq_getLsbD_last]
  unfold crcShift
  rw [top]
  have two : (2 : Polynomial (ZMod 2)) = 0 := CharTwo.two_eq_zero
  cases h : r.getLsbD 7
  · refine ⟨0, ?_⟩
    simp only [Bool.false_eq_true, if_false]
    rw [h1]
    change polyFrom 0 ((byteBits r).tail ++ [false]) - Polynomial.X * polyFrom 0 (byteBits r) = _
    simp only [polyFrom, byteBits, h, List.tail_cons, List.cons_append, List.nil_append, List.foldl_cons,
      List.foldl_nil, Bool.false_eq_true, if_false, map_zero]
    ring
  · refine ⟨1, ?_⟩
    simp only [if_true]
    rw [polyFrom_xor, h1, h2]
    change polyFrom 0 ((byteBits r).tail ++ [false]) + _ - Polynomial.X * polyFrom 0 (byteBits r) = _
    simp only [polyFrom, byteBits, h, polyG, List.tail_cons, List.cons_append, List.nil_append, List.foldl_cons,
      List.foldl_nil, Bool.false_eq_true, if_false, if_true, map_zero, map_one]
    linear_combination (-Polynomial.X ^ 8) * two

theorem polyG_dvd_shifts (n : Nat) (r : Byte) :
    polyG ∣ polyFrom 0 (byteBits (crcShifts n r)) - Polynomial.X ^ n * polyFrom 0 (byteBits r) := by
  induction n generalizing r with
  | zero => simp [crcShifts]
  | succ n ih =>
    have := dvd_add (ih (crcShift r)) ((polyG_dvd_shift r).mul_left (Polynomial.X ^ n))
    convert this using 1
    rw [crcShifts]; ring

theorem polyG_dvd_bytes (bytes : List Byte) (r : Byte) (p : Polynomial (ZMod 2))
    (h : polyG ∣ polyFrom 0 (byteBits r) - p * Polynomial.X ^ 8) :
    polyG ∣ polyFrom 0 (byteBits (bytes.foldl crc8Update r)) -
      polyFrom p (bytes.flatMap byteBits) * Polynomial.X ^ 8 := by
  induction bytes generalizing r p with
  | nil => exact h
  | cons b bytes ih =>
    rw [List.flatMap_cons, polyFrom_append]
    refine ih _ _ ?_
    have := dvd_add (polyG_dvd_shifts 8 (r ^^^ b)) (h.mul_left (Polynomial.X ^ 8))
    rw [polyFrom_xor] at this
    convert this using 1
    rw [crc8Update, polyFrom_byte p b]; ring

open Polynomial in
/-- A byte that is a multiple of G(x) is zero: its degree is below 8. -/
theorem eq_zero_of_polyG_dvd {r : Byte} (h : polyG ∣ polyFrom 0 (byteBits r)) : r = 0x00 := by
  have hG : polyG.Monic ∧ polyG.natDegree = 8 := by
    unfold polyG
    constructor
    · monicity!
    · compute_degree!
  by_contra hr
  have hdeg : (polyFrom 0 (byteBits r)).natDegree < polyG.natDegree := by
    rw [hG.2]
    simp only [polyFrom, byteBits, List.foldl_cons, List.foldl_nil]
    refine Nat.lt_of_le_of_lt (m := 7) ?_ (by norm_num)
    simp only [zero_mul, zero_add]
    compute_degree
  refine hG.1.not_dvd_of_natDegree_lt ?_ hdeg h
  intro h0
  apply hr
  have horner : ∀ c : Fin 8 → ZMod 2,
      (((((((0 * X + C (c 7)) * X + C (c 6)) * X + C (c 5)) * X + C (c 4)) * X + C (c 3)) * X + C (c 2)) * X +
        C (c 1)) * X + C (c 0) = 0 → ∀ i : Fin 8, c i = 0 := by
    intro c hc i
    have := congrArg (coeff · i.val) hc
    fin_cases i <;> simpa [coeff_C] using this
  have bits := horner (fun i => if r.getLsbD i.val = true then 1 else 0) h0
  apply BitVec.eq_of_getLsbD_eq
  intro i hi
  have zero : ∀ b : Bool, (if b = true then (1 : ZMod 2) else 0) = 0 → b = false := by decide
  simpa using zero _ (bits ⟨i, hi⟩)

/-- Being a multiple of G(x) is what the CRC tests (R67 (a), R70 (f)). -/
theorem multipleOfG_iff_crc8 (bytes : List Byte) : multipleOfG bytes ↔ crc8 bytes = 0x00 := by
  rw [multipleOfG_iff]
  have h := polyG_dvd_bytes bytes 0x00 0 (by simp [polyFrom, byteBits])
  change polyG ∣ polyFrom 0 (byteBits (crc8 bytes)) - _ at h
  have cop : IsCoprime polyG (Polynomial.X ^ 8) := by
    apply IsCoprime.pow_right
    refine ⟨1, -(Polynomial.X ^ 7 + Polynomial.X ^ 3 + Polynomial.X ^ 2 + Polynomial.X), ?_⟩
    unfold polyG; ring
  constructor
  · intro hm
    apply eq_zero_of_polyG_dvd
    have := dvd_add h (hm.mul_right (Polynomial.X ^ 8))
    simpa using this
  · intro h0
    rw [h0] at h
    apply cop.dvd_of_dvd_mul_right
    simpa [polyFrom, byteBits] using h

end Sys2Proof.Machine
end

