-- ==== Sys2Proof/Laws/PerInstr.lean ====
section
/-! SUPPORT. Statements made for each command as syntax: its word selects its own row of the command table (R57). -/

namespace Sys2Proof.Laws.EncodeSelectsRow

/-- A command is well-formed and its word selects its own row of the command table, with `rsvd` = 0. -/
def Statement (i : Instr) : Prop :=
  i.wellFormed = true ∧ i.row.selects (encode i) = true ∧ cmdRsvd (encode i) = 0x0000

theorem crcClr : Statement .crcClr := ⟨rfl, by decide, by decide⟩

theorem crcUpd (imm8 : Byte) : Statement (.crcUpd imm8) := by
  have key : ∀ k : Fin 256, (Instr.crcUpd (BitVec.ofFin k)).row.selects (encode (.crcUpd (BitVec.ofFin k))) = true ∧
      cmdRsvd (encode (.crcUpd (BitVec.ofFin k))) = 0x0000 := by
    decide +kernel
  exact ⟨rfl, key imm8.toFin⟩

theorem enc : Statement .enc := ⟨rfl, by decide, by decide⟩

theorem dec : Statement .dec := ⟨rfl, by decide, by decide⟩

end Sys2Proof.Laws.EncodeSelectsRow
end

