-- ==== Sys2Proof/Tests/Slice0.lean ====
section
/-! SUPPORT. Tests, their expected results taken from spec/ (95_test_vectors.md where no other place is named), and for
every statement with hypotheses a witness that meets them. -/

namespace Sys2Proof.Tests

open Sys2Proof.Machine

/-! ## Helpers -/

/-- The unit after reset with zero draws. -/
def u0 : UnitRegs := Tcu.resetWith Draws.zero

/-- A state with that unit, nothing pending and nothing read. -/
def st (u : UnitRegs) : State := { unit := u, pending := [], reads := [] }

/-- The source's scenario: the five inputs of 95_test_vectors.md section 1.1. -/
def scenario : UnitRegs :=
  { u0 with epochIn := 11, rootIn := 0xCAFE, tip0In := 0x123, tip1In := 0x456, mac8In := 0x17 }

/-- Its trailer. -/
def goodTrailer : Trailer := #v[0xCF, 0x0B, 0xCA, 0xFE, 0x12, 0x34, 0x56, 0x17, 0x00, 0xF1]

/-- A unit with a candidate loaded. -/
def loaded (len : Word) (t : Trailer) (m : Byte) : UnitRegs := { u0 with tlen := len, trl := t, mac8In := m }

/-! ## Well-formedness: one ill-formed term for each check -/

theorem test_wellFormed_command : (Instr.crcUpd 0xFF).wellFormed = true := by decide
theorem test_wellFormed_wr_register : (AsmLine.wr 256 0).wellFormed = false := by decide
theorem test_wellFormed_wr_value : (AsmLine.wr 4 4294967296).wellFormed = false := by decide
theorem test_wellFormed_rd_register : (AsmLine.rd 256 none).wellFormed = false := by decide
theorem test_wellFormed_rd_register_expected : (AsmLine.rd 256 (some 0)).wellFormed = false := by decide
theorem test_wellFormed_rd_expected : (AsmLine.rd 1 (some 4294967296)).wellFormed = false := by decide
theorem test_wellFormed_crcUpd : (AsmLine.crcUpd 256).wellFormed = false := by decide
theorem test_wellFormed_ldtrl : (AsmLine.ldtrl [0xCF, 256]).wellFormed = false := by decide
theorem test_wellFormed_crcBytes : (AsmLine.crcBytes [256]).wellFormed = false := by decide
theorem test_wellFormed_crcOf : (AsmLine.crcOf [1, 256]).wellFormed = false := by decide
theorem test_wellFormed_setenc : (AsmLine.setenc 0 0 0 0 4294967296).wellFormed = false ∧
    (AsmLine.setenc 4294967296 0 0 0 0).wellFormed = false ∧ (AsmLine.setenc 0 4294967296 0 0 0).wellFormed = false ∧
    (AsmLine.setenc 0 0 4294967296 0 0).wellFormed = false ∧ (AsmLine.setenc 0 0 0 4294967296 0).wellFormed = false := by
  decide
theorem test_wellFormed_good_line : (AsmLine.wr 255 4294967295).wellFormed = true := by decide

/-! ## Decoding: words written out bit by bit from R56 and R57 (rsvd, opcode, imm8) -/

theorem test_decode_crcClr : decodeCmd 0b0000000000000000_00000001_00000000 = .ok .crcClr := by decide
theorem test_decode_crcUpd : decodeCmd 0b0000000000000000_00000010_10100101 = .ok (.crcUpd 0xA5) := by decide
theorem test_decode_enc : decodeCmd 0b0000000000000000_00010000_00000000 = .ok .enc := by decide
theorem test_decode_dec : decodeCmd 0b0000000000000000_00100000_00000000 = .ok .dec := by decide
theorem test_decode_zero_word : decodeCmd 0x00000000 = .error .unknownOpcode := by decide
theorem test_decode_rsvd_top_bit : decodeCmd 0x10000100 = .error .reservedBits := by decide
theorem test_decodeTableWord : decodeTableWord 32 0x000002FF = some (.crcUpd 0xFF) := by decide
theorem test_decodeTableWord_illegal : decodeTableWord 32 0x00001001 = none := by decide

/-! ## The pure functions -/

theorem test_crcUpdate_step : crc8Update 0x00 0xCF = 0x8E := by decide
theorem test_crcUpdate_ff : crc8Update 0xFF 0x80 = 0xE2 := by decide
theorem test_crc8_check_value : crc8 [0x31, 0x32, 0x33, 0x34, 0x35, 0x36, 0x37, 0x38, 0x39] = 0x37 := by decide +kernel
theorem test_packTips_masks : packTips (0x1ABC : Word) 0xFFFFF001 = 0xABC001 := by decide
theorem test_unpackTips : unpackTips 0xAAABBB = (0xAAA, 0xBBB) := by decide
theorem test_rsvd8_changes_crc :
    packTrailer { Config.tcu with rsvd8 := 0x55 } (11 : Word) 0xCAFE 0x123 0x456 0x5A =
      #v[0xCF, 0x0B, 0xCA, 0xFE, 0x12, 0x34, 0x56, 0x5A, 0x55, 0x97] := by decide +kernel
theorem test_memRead_big_endian : memRead goodTrailer 4 3 = 0x123456 := by decide
theorem test_memWrite_big_endian :
    memWrite goodTrailer 2 2 0x1234 = #v[0xCF, 0x0B, 0x12, 0x34, 0x12, 0x34, 0x56, 0x17, 0x00, 0xF1] := by decide

/-! ## Commands, one step each -/

theorem test_crcClr : exec .crcClr (st { u0 with crcr := 0xA9, status := 0x04 }) = .next (st u0) := rfl
theorem test_crcUpd : exec (.crcUpd 0x42) (st { u0 with crcr := 0x0E }) = .next (st { u0 with crcr := 0x8F }) := rfl
theorem test_crcUpd_same : exec (.crcUpd 0xA9) (st { u0 with crcr := 0xA9 }) = .next (st u0) := rfl

theorem test_enc_scenario : Tcu.encode Config.tcu scenario = { scenario with trl := goodTrailer, tlen := 10 } := by
  decide +kernel
theorem test_enc_range_keeps_trailer :
    Tcu.encode Config.tcu { scenario with epochIn := 256, trl := goodTrailer, tlen := 3 } =
      { scenario with epochIn := 256, trl := goodTrailer, tlen := 3, status := 0x01 } := by decide

theorem test_dec_unpacks : Tcu.decode (loaded 10 goodTrailer 0x17) =
    { loaded 10 goodTrailer 0x17 with epochOut := 0x0B, rootOut := 0xCAFE, tip0Out := 0x123, tip1Out := 0x456 } := by
  decide +kernel
theorem test_dec_crc_before_mac :
    Tcu.decode (loaded 10 (goodTrailer.set 9 0x00) 0x99) =
      { loaded 10 (goodTrailer.set 9 0x00) 0x99 with status := 0x04 } := by decide +kernel

/-! ## A unit of another configuration (R4): 17 bits wide, `RSVD8` = 0x55 -/

/-- The smallest `W_IN`, and a nonzero `RSVD8`. -/
def narrow : Config := { rsvd8 := 0x55, wIn := 17, wIn_ok := by decide }

theorem test_narrow_wr_cuts : ((Tcu.resetWith Draws.zero : Tcu 17).hostWrite 0x05 0x00030001).rootIn = 0x10001 := by
  decide
theorem test_narrow_enc_range :
    ((Tcu.resetWith Draws.zero : Tcu narrow.wIn).afterEvents narrow [.wr 0x05 0x00010000, .wr 0x00 0x00001000]).status =
      0x01 := by decide
theorem test_narrow_enc :
    let u := (Tcu.resetWith Draws.zero : Tcu narrow.wIn).afterEvents narrow
      [.wr 0x04 11, .wr 0x05 0xCAFE, .wr 0x06 0x123, .wr 0x07 0x456, .wr 0x03 0x5A, .wr 0x00 0x00001000]
    u.trl = #v[0xCF, 0x0B, 0xCA, 0xFE, 0x12, 0x34, 0x56, 0x5A, 0x55, 0x97] ∧ u.tlen = 10 ∧ u.status = 0x00 := by
  decide +kernel

/-! ## Host access and steps -/

theorem test_wr_cuts : (u0.hostWrite 0x03 0x00000117).mac8In = 0x17 := by decide
theorem test_wr_trailer_byte : (u0.hostWrite 0x19 0x000001CF).trl[9] = 0xCF := by decide
theorem test_rd_widens : { u0 with tip0Out := 0xABC }.hostRead 0x0B = 0x00000ABC := by decide
theorem test_rd_unmapped : { u0 with tip1Out := 0xABC }.hostRead 0x0D = 0x00000000 := by decide
theorem test_step_first_after_reset :
    step (State.reset.withFetchWord 32 0x00002000) = .next (st { u0 with status := 0x02 }) := rfl
theorem test_step_illegal_word :
    step (State.reset.withFetchWord 32 0x00001001) = .next (st { u0 with status := 0x06 }) := rfl

/-! ## Lines of host programs (R62 to R64 and the programs of 95_test_vectors.md section 3) -/

theorem test_parse_wr : parseLine "WR ROOT_IN, 0xCAFE ; root" = some [.wr 0x05 0xCAFE] := by decide
theorem test_parse_rd_expected : parseLine "RD  TRL[9]  -> 0x60" = some [.rd 0x19 (some 0x60)] := by decide
theorem test_parse_trl_names : parseLine "WR TRL4, 19" = parseLine "WR TRL[4], 0x13" := by decide
theorem test_parse_ldtrl : parseLine "LDTRL 0xCF 0x0B" = some [.ldtrl [0xCF, 0x0B]] := by decide
theorem test_parse_refuses : parseLine "WR FOO, 1" = none := by decide
theorem test_assemble_triples :
    assemble [.wr 0x04 11, .enc, .rd 0x01 none] =
      some [.wr 0x04 0x0000000B, .wr 0x00 0x00001000, .rd 0x01] := by decide
theorem test_ldtrl_order : ldtrl [0xCF, 0x0B] = [.wr 0x10 0xCF, .wr 0x11 0x0B, .wr 0x08 2] := by decide

/-! ## Witnesses: concrete operands that meet the hypotheses of each statement -/

theorem witness_IllegalWordsAreAllOthers :
    (∃ e, decodeCmd 0x00000000 = .error e) ∧ (∃ e, decodeCmd 0xFFFFFFFF = .error e) :=
  ⟨⟨.unknownOpcode, by decide⟩, ⟨.reservedBits, by decide⟩⟩

theorem witness_StepRunsDecodedCommand :
    (st u0 |>.withFetchWord 32 0x000002FF).pending = [.wr 0x00 0x000002FF] ∧
    decodeCmd 0x000002FF = .ok (.crcUpd 0xFF) := by decide

theorem witness_UnitWaitsForHost : State.reset.pending = [] := rfl

theorem witness_TransactionsReadAndWrite_writes :
    (∃ r, Reg.ofNumber 0x03 = some r ∧ r.access = .readWrite) ∧ (∃ r, Reg.ofNumber 0x19 = some r ∧ r.access = .readWrite) ∧
    ((0x01 : RegNum) ≠ 0x00 ∧ ∀ r, Reg.ofNumber 0x01 = some r → r.access ≠ .readWrite) ∧
    ((0x1A : RegNum) ≠ 0x00 ∧ ∀ r, Reg.ofNumber 0x1A = some r → r.access ≠ .readWrite) := by
  refine ⟨⟨.mac8In, by decide⟩, ⟨.trl 9, by decide⟩, by decide, by decide⟩

theorem witness_TransactionsReadAndWrite_pending :
    ({ st u0 with pending := [.wr 0x00 0x1000] }).pending = [.wr 0x00 0x1000] ∧
    ({ st u0 with pending := [.wr 0x03 0x117] }).pending = [.wr 0x03 0x117] ∧
    ({ st u0 with pending := [.rd 0x0B] }).pending = [.rd 0x0B] ∧ Reg.ofNumber 0x0B = some .tip0Out ∧
    Reg.ofNumber 0xFF = none := by decide

theorem witness_RegistersAreTheWholeUnit : ∀ r ∈ Reg.stored, scenario.get r = scenario.get r := fun _ _ => rfl

theorem witness_WrongDirectionAccesses :
    ({ st u0 with pending := [.wr 0x0C 3] }).pending = [.wr 0x0C 3] ∧ (0x0C : RegNum).toNat ∈ [0x01, 0x02, 0x09, 0x0A, 0x0B, 0x0C] ∧
    (0x0D ≤ (0x0D : RegNum).toNat ∧ (0x0D : RegNum).toNat ≤ 0x0F) ∧ (0x0D ≤ (0x0F : RegNum).toNat ∧ (0x0F : RegNum).toNat ≤ 0x0F) ∧
    0x1A ≤ (0x1A : RegNum).toNat ∧ 0x1A ≤ (0xFF : RegNum).toNat ∧
    ({ st u0 with pending := [.rd 0x00] }).pending = [.rd 0x00] ∧ (0x00 : RegNum).toNat = 0x00 := by decide

theorem witness_ReadReturnsLatestWrite :
    Reg.mac8In.access = .readWrite ∧
    ∀ e ∈ [(.rd 0x03 : HostEvent), .wr 0x00 0x00001000, .wr 0x04 7], (∀ draws, e ≠ .reset draws) ∧
      (∀ d', e ≠ .wr Reg.mac8In.number d') ∧
      (eventCommand e = some .enc → Reg.mac8In ≠ .tlen ∧ ∀ i, Reg.mac8In ≠ .trl i) := by
  refine ⟨rfl, ?_⟩
  intro e he
  simp at he
  rcases he with rfl | rfl | rfl <;> simp [Reg.number]

theorem witness_FrameTable :
    ({ st scenario with pending := [.wr 0x00 0x1000] }).pending = [.wr 0x00 0x1000] ∧
    Reg.crcr ∉ mayChange scenario (.wr 0x00 0x1000) ∧ Reg.tlen ∈ mayChange scenario (.wr 0x00 0x1000) := by decide

theorem witness_ResetLeavesDrawsOpen :
    ({ st scenario with pending := [.reset Draws.zero] }).pending = [.reset Draws.zero] := rfl

theorem witness_StraightAfterReset : decodeCmd 0x00000300 = .error .unknownOpcode := by decide

theorem witness_PreparedEncIgnoresDraws : preparedForEnc (setenc 11 0xCAFE 0x123 0x456 0x17) = true := by decide

theorem witness_PreparedDecIgnoresDraws :
    preparedForDec (ldtrl goodTrailer.toList ++ [writeEvent .mac8In 0x17]) = true ∧
    preparedForDec ([commandEvent .enc] ++ ldtrl goodTrailer.toList ++ [writeEvent .mac8In 0x17]) = true ∧
    preparedForDec (ldtrl [] ++ [writeEvent .mac8In 0x17]) = true ∧
    preparedForDec (ldtrl (goodTrailer.toList ++ [0x00]) ++ [writeEvent .mac8In 0x17]) = true ∧
    preparedForDec (ldtrl goodTrailer.toList ++ [writeEvent .mac8In 0x17, commandEvent .enc]) = false := by decide
theorem witness_PreparedDecIgnoresDraws_after_enc :
    preparedForEnc (setenc 11 0xCAFE 0x123 0x456 0x17) = true ∧
    ∃ s, runProgram Draws.zero (setenc 11 0xCAFE 0x123 0x456 0x17 ++ [.wr 0x00 0x00001000]) = .next s ∧
      s.unit.status = 0x00 := ⟨by decide, _, rfl, rfl⟩

theorem witness_StatusStaysLegal :
    (State.reset.withFetchWord 32 0x00002000).unit.statusWf = true ∧
    step (State.reset.withFetchWord 32 0x00002000) = .next (st { u0 with status := 0x02 }) := ⟨by decide, rfl⟩

theorem witness_IllegalCommandReported :
    (State.reset.withFetchWord 32 0x00001001).pending = [.wr 0x00 0x00001001] ∧
    decodeCmd 0x00001001 = .error .operandNotZero := by decide

theorem witness_FailingCommandChangesStatusOnly :
    (({ scenario with epochIn := 256 } : UnitRegs).encode Config.tcu).codeBits ≠ 0x0 := by decide

theorem witness_CodesOfEachCommand : decodeCmd 0x00010100 = .error .reservedBits ∧ (0x01 : RegNum) ≠ 0x00 := by decide

theorem witness_CommandsDependOnReadSetOnly :
    (∀ r ∈ readSet .enc, (st scenario).unit.get r = (st { scenario with crcr := 0x55, trl := goodTrailer }).unit.get r) ∧
    (∀ r ∈ readSet .dec, (st (loaded 10 goodTrailer 0x17)).unit.get r =
      (st { loaded 10 goodTrailer 0x17 with epochOut := 0x99, crcr := 0x55 }).unit.get r) := by decide

theorem witness_CrcIsLinear : [(0x01 : Byte), 0x02].length = [(0x03 : Byte), 0x04].length := rfl

theorem witness_AppendedCrcGivesZero :
    goodTrailer.toList.length = 10 ∧ goodTrailer.toList.getD 0 0x00 = 0xCF := by decide

theorem witness_CrcDependsOnXorOnly : (0x12 : Byte) ^^^ 0x34 = 0x26 ^^^ 0x00 := by decide

theorem witness_CrcErrorDetection :
    goodTrailer.toList.length = 10 ∧ crc8 goodTrailer.toList = 0x00 ∧ (0x80 : Byte) ≠ 0x00 ∧ (72 : Nat) ≤ 72 ∧
    (0 : Fin 80) ≠ 79 := by decide +kernel

theorem witness_CrcClrResult : (0x01 : Byte) ≠ 0x00 := by decide

theorem witness_CrcUpdResult : (st u0).unit.crcr = 0x00 := rfl

theorem witness_StreamingEqualsFunction :
    ((.wr 0x00 0x00000100 : HostEvent) = .wr 0x00 0x00000100) ∧
    (∀ e ∈ [(.wr 0x00 0x00000241 : HostEvent), .rd 0x02, .wr 0x00 0x00001000, .wr 0x00 0x00000000, .wr 0x00 0x000002FF],
      keepsStream e = true) ∧
    streamedBytes [(.wr 0x00 0x00000241 : HostEvent), .rd 0x02, .wr 0x00 0x00001000, .wr 0x00 0x000002FF] = [0x41, 0xFF] := by decide

theorem witness_EncResult_in_range :
    (st { scenario with epochIn := 255, rootIn := 65535 }).unit.epochIn.toNat < 256 ∧
    (st { scenario with epochIn := 255, rootIn := 65535 }).unit.rootIn.toNat < 65536 := by decide
theorem witness_EncResult_out_of_range :
    256 ≤ (st { scenario with epochIn := 256 }).unit.epochIn.toNat ∧
    65536 ≤ (st { scenario with rootIn := 65536 }).unit.rootIn.toNat := by decide

theorem witness_EncMakesValidTrailers : scenario.epochIn.toNat < 256 ∧ scenario.rootIn.toNat < 65536 := by decide

theorem witness_EncMasksTips :
    (0x123 : Word).toNat % 4096 = (0x1123 : Word).toNat % 4096 ∧ (0x001 : Word).toNat % 4096 = (0xFFFFF001 : Word).toNat % 4096 ∧
    (st scenario).unit.epochIn.toNat < 256 ∧ (st scenario).unit.rootIn.toNat < 65536 := by decide

theorem witness_TrailerByMemAccesses : rangeOk (255 : Word) (65535 : Word) = true := by decide
theorem witness_TrailerAsOneValue : rangeOk (0 : Word) (0 : Word) = true := by decide
theorem witness_InputWidthDoesNotMatter :
    narrow.rsvd8 = { Config.tcu with rsvd8 := 0x55 }.rsvd8 ∧
    (Tcu.resetWith Draws.zero : Tcu 17).agrees (Tcu.resetWith Draws.zero : Tcu 32) ∧
    List.Forall₂ Event.agrees
      [(.reset Draws.zero : Event 17), .wr 0x05 131071, .wr 0x10 0xFFFFFFCF, .wr 0x00 0x00001000, .rd 0x08]
      [(.reset Draws.zero : Event 32), .wr 0x05 131071, .wr 0x10 0xFFFFFFCF, .wr 0x00 0x00001000, .rd 0x08] := by
  simp only [List.forall₂_cons, List.Forall₂.nil, Event.agrees, Tcu.agrees]
  decide
theorem witness_InputWidthDoesNotMatter_pure : 131071 < 2 ^ min 17 32 ∧ 65536 < 2 ^ min 17 32 := by decide

theorem witness_DecResult_length : (loaded 11 goodTrailer 0x17).tlen ≠ 10 ∧ (loaded 0x10A goodTrailer 0x17).tlen ≠ 10 := by
  decide
theorem witness_DecResult_magic :
    (loaded 10 (goodTrailer.set 0 0xCE) 0x17).tlen = 10 ∧ (goodTrailer.set 0 0xCE)[0] ≠ 0xCF := by decide
theorem witness_DecResult_crc :
    (goodTrailer.set 9 0xF0)[0] = 0xCF ∧ crc8 (crcBody (goodTrailer.set 9 0xF0)) ≠ (goodTrailer.set 9 0xF0)[9] := by decide +kernel
theorem witness_DecResult_mac :
    goodTrailer[0] = 0xCF ∧ crc8 (crcBody goodTrailer) = goodTrailer[9] ∧ (loaded 10 goodTrailer 0x18).mac8In ≠ goodTrailer[7] := by
  decide +kernel
theorem witness_DecResult_ok :
    (loaded 10 goodTrailer 0x17).tlen = 10 ∧ goodTrailer[0] = 0xCF ∧ crc8 (crcBody goodTrailer) = goodTrailer[9] ∧
    (loaded 10 goodTrailer 0x17).mac8In = goodTrailer[7] := by decide +kernel

theorem witness_EarlyErrorsIgnoreMac : (Tcu.decode (loaded 10 (goodTrailer.set 9 0xF0) 0x17)).status ∈ [0x02, 0x03, 0x04] := by
  decide +kernel

theorem witness_EncThenDecRoundTrip :
    scenario.epochIn.toNat < 256 ∧ scenario.rootIn.toNat < 65536 ∧
    (loaded 10 goodTrailer 0x17).trl = (Tcu.encode Config.tcu scenario).trl ∧
    (loaded 10 goodTrailer 0x17).tlen = (Tcu.encode Config.tcu scenario).tlen ∧
    (loaded 10 goodTrailer 0x17).mac8In = scenario.mac8In := by decide +kernel

/-- An authentic trailer in the buffer. -/
def authentic : State := st (loaded 10 goodTrailer 0x17)

theorem witness_CorruptedTrailerOutcomes :
    authentic.unit.tlen = 10 ∧ authenticFor authentic.unit.mac8In authentic.unit.trl.toList = true ∧
    (0xCE : Byte) ≠ goodTrailer[0] ∧ (0xF0 : Byte) ≠ goodTrailer[9] ∧ (1 : Fin 10) ≠ 9 ∧ (0x18 : Byte) ≠ 0x17 := by
  decide +kernel
theorem witness_CorruptedTrailerOutcomes_crc :
    ¬multipleOfG (List.zipWith (· ^^^ ·) goodTrailer.toList (goodTrailer.set 9 0xF0).toList) := by
  rw [multipleOfG_iff_crc8]; decide +kernel
theorem witness_CorruptedTrailerOutcomes_mac :
    ((goodTrailer.set 7 0x18).set 9 0x52)[0] = goodTrailer[0] ∧
    multipleOfG (List.zipWith (· ^^^ ·) goodTrailer.toList ((goodTrailer.set 7 0x18).set 9 0x52).toList) ∧
    ((goodTrailer.set 7 0x18).set 9 0x52)[7] ≠ goodTrailer[7] := by
  rw [multipleOfG_iff_crc8]; decide +kernel
theorem witness_CorruptedTrailerOutcomes_ok :
    ((goodTrailer.set 6 0x54).set 9 0xF2)[0] = goodTrailer[0] ∧
    multipleOfG (List.zipWith (· ^^^ ·) goodTrailer.toList ((goodTrailer.set 6 0x54).set 9 0xF2).toList) ∧
    ((goodTrailer.set 6 0x54).set 9 0xF2)[7] = goodTrailer[7] := by
  rw [multipleOfG_iff_crc8]; decide +kernel

/-- Three flipped bits that no check sees (R93; 95_test_vectors.md section 2.6): `OK` with a wrong `TIP1_OUT`. -/
theorem test_dec_undetected : Tcu.decode (loaded 10 ((goodTrailer.set 6 0x54).set 9 0xF2) 0x17) =
    { loaded 10 ((goodTrailer.set 6 0x54).set 9 0xF2) 0x17 with
      epochOut := 0x0B, rootOut := 0xCAFE, tip0Out := 0x123, tip1Out := 0x454 } := by decide +kernel

theorem witness_ValidTrailersByBytesOneToEight :
    [(0x0B : Byte), 0xCA, 0xFE, 0x12, 0x34, 0x56, 0x17, 0x00].length = 8 ∧ validTrailer goodTrailer.toList = true := by decide +kernel

theorem witness_EncodeWrapperMeetsSource :
    ¬((0 : Int) ≤ -1 ∧ (-1 : Int) < 256 ∧ (0 : Int) ≤ 0 ∧ (0 : Int) < 65536) ∧
    ((0 : Int) ≤ 255 ∧ (255 : Int) < 256 ∧ (0 : Int) ≤ 65535 ∧ (65535 : Int) < 65536) := by decide

theorem witness_DecodeWrapperMeetsSource :
    (goodTrailer.toList ++ [0x00]).length ≠ 10 ∧ goodTrailer.toList.length = 10 ∧
    (goodTrailer.set 0 0xCE).toList.getD 0 0x00 ≠ 0xCF ∧ goodTrailer.toList.getD 0 0x00 = 0xCF ∧
    crc8 ((goodTrailer.set 9 0xF0).toList.take 9) ≠ (goodTrailer.set 9 0xF0).toList.getD 9 0x00 ∧
    crc8 (goodTrailer.toList.take 9) = goodTrailer.toList.getD 9 0x00 ∧
    (fun (_ _ : List Byte) => (0x18 : Byte)) [] [] ≠ goodTrailer.toList.getD 7 0x00 ∧
    (fun (_ _ : List Byte) => (0x17 : Byte)) [] [] = goodTrailer.toList.getD 7 0x00 := by decide +kernel

theorem witness_SourceRoundTrip : 255 < 256 ∧ 65535 < 65536 ∧ 4095 < 4096 ∧ 0 < 4096 := by decide

theorem witness_TwoPassDecodeAgrees :
    ∃ s', decodeCall (fun _ _ => 0x17) [0xCF] [] [] State.reset = .next (.error (.formatError .wrongLength), s') :=
  ⟨_, rfl⟩

theorem witness_StepExtendsStreamedCrc :
    let s := st { u0 with crcr := 0x0E } |>.issueCommand 0x00000242
    s.pending = [.wr 0x00 0x00000242] ∧ keepsStream (.wr 0x00 0x00000242 : HostEvent) = true ∧
    s.unit.crcr = crc8 [0x41] ∧ step s = .next (st { u0 with crcr := 0x8F }) ∧
    streamedBytes [(.wr 0x00 0x00000242 : HostEvent)] = [0x42] := ⟨rfl, by decide, by decide, rfl, by decide⟩

theorem witness_StepKeepsHostWrittenAgreement :
    let s := { st scenario with pending := [.wr 0x03 0x17] }
    let s' := { st { scenario with rootIn := 0x99, mac8In := 0x55, crcr := 0x01 } with pending := [.wr 0x03 0x17] }
    let es : List HostEvent := [.wr 0x04 11, .wr 0x06 0x123]
    (∀ r ∈ readSet .enc, (latestWrite r es).isSome = true → s.unit.get r = s'.unit.get r) ∧
    (∀ r, r.access = .readWrite → (latestLoad r es).isSome = true → s.unit.get r = s'.unit.get r) ∧
    (latestWrite .mac8In (es ++ [.wr 0x03 0x17])).isSome = true ∧
    step s = .next (st scenario) ∧
    step s' = .next (st { scenario with rootIn := 0x99, crcr := 0x01 }) := by
  refine ⟨by decide, ?_, by decide, rfl, rfl⟩
  intro r
  cases r with
  | trl i => revert i; decide
  | _ => decide

end Sys2Proof.Tests
end

section
/-! PROOFS. The host interface of section 2 of 20_memory.md: what a step does with each host transaction, which numbers
the register map names, and the statements O7, O8 and O10 from these. -/

namespace Sys2Proof.Machine

/-! ## One step, by the transaction it takes (R31) -/

section Steps

variable {s : State} {n : RegNum} {d : Word} {e : HostEvent} {rest : List HostEvent}

theorem step_of_pending (h : s.pending = e :: rest) : step s = transact e { s with pending := rest } := by
  simp [step, nextEvent, h]

theorem step_wr_cmd (h : s.pending = .wr 0x00 d :: rest) : step s = command d { s with pending := rest } :=
  step_of_pending h

theorem step_wr_of_ne_cmd (h : s.pending = .wr n d :: rest) (hn : n ≠ 0x00) :
    step s = .next { s with pending := rest, unit := s.unit.hostWrite n d } :=
  (step_of_pending h).trans (if_neg hn)

theorem step_rd (h : s.pending = .rd n :: rest) :
    step s = .next { s with pending := rest, reads := s.reads ++ [s.unit.hostRead n] } :=
  step_of_pending h

end Steps

/-! ## Numbers the map does not name, and numbers the host may not write (R32, R34) -/

section Numbers

variable {w : Nat} {n : RegNum}

theorem Tcu.hostRead_of_unmapped (h : Reg.ofNumber n = none) (u : Tcu w) : u.hostRead n = 0x00000000 := by
  simp [Tcu.hostRead, h]

theorem Tcu.hostRead_cmd (u : Tcu w) : u.hostRead 0x00 = 0x00000000 := rfl

theorem Tcu.hostWrite_of_not_readWrite (h : ∀ r, Reg.ofNumber n = some r → r.access ≠ .readWrite) (d : Word)
    (u : Tcu w) : u.hostWrite n d = u := by
  unfold Tcu.hostWrite
  cases hr : Reg.ofNumber n with
  | none => rfl
  | some r => exact Tcu.put_of_not_readWrite (h r hr) d u

theorem Reg.trl_number_toNat (i : Fin 10) : (Reg.trl i).number.toNat = 0x10 + i.val := by
  revert i; decide

theorem Reg.number_toNat_range (r : Reg) :
    r.number.toNat ≤ 0x0C ∨ (0x10 ≤ r.number.toNat ∧ r.number.toNat ≤ 0x19) := by
  cases r with
  | trl i => rw [Reg.trl_number_toNat]; omega
  | _ => exact .inl (by decide)

theorem Reg.number_toNat_range_of_readWrite {r : Reg} (h : r.access = .readWrite) :
    (0x03 ≤ r.number.toNat ∧ r.number.toNat ≤ 0x08) ∨ (0x10 ≤ r.number.toNat ∧ r.number.toNat ≤ 0x19) := by
  cases r with
  | trl i => rw [Reg.trl_number_toNat]; omega
  | mac8In | epochIn | rootIn | tip0In | tip1In | tlen => exact .inl (by decide)
  | _ => cases h

theorem Reg.ofNumber_eq_none_of_range (h : (0x0D ≤ n.toNat ∧ n.toNat ≤ 0x0F) ∨ 0x1A ≤ n.toNat) :
    Reg.ofNumber n = none := by
  cases hr : Reg.ofNumber n with
  | none => rfl
  | some r =>
    rw [Reg.number_of_ofNumber hr] at h
    have := Reg.number_toNat_range r
    omega

theorem Reg.not_readWrite_of_range
    (h : n.toNat ≤ 0x02 ∨ (0x09 ≤ n.toNat ∧ n.toNat ≤ 0x0F) ∨ 0x1A ≤ n.toNat) (r : Reg)
    (hr : Reg.ofNumber n = some r) : r.access ≠ .readWrite := by
  intro hrw
  rw [Reg.number_of_ofNumber hr] at h
  have := Reg.number_toNat_range_of_readWrite hrw
  omega

theorem Reg.number_ne_zero_of_readWrite {r : Reg} (h : r.access = .readWrite) : r.number ≠ 0x00 :=
  Reg.number_ne_cmd (by rintro rfl; cases h)

end Numbers

/-! ## The printed table (R32) -/

/-- The row that R32 prints for a register, from the model's number, width and access. -/
def Reg.printedRow (r : Reg) : Nat × Reg × Nat × Access :=
  (r.number.toNat, r, r.width Config.tcu, r.access)

theorem Reg.mem_cmd_cons_stored (r : Reg) : r ∈ Reg.cmd :: Reg.stored := by
  cases r with
  | trl i => revert i; decide
  | _ => decide

theorem Reg.mem_map_printedRow {k w : Nat} {r : Reg} {a : Access} :
    (k, r, w, a) ∈ (Reg.cmd :: Reg.stored).map Reg.printedRow ↔
      k = r.number.toNat ∧ w = r.width Config.tcu ∧ a = r.access := by
  rw [List.mem_map]
  constructor
  · rintro ⟨q, -, hq⟩
    cases hq
    exact ⟨rfl, rfl, rfl⟩
  · rintro ⟨rfl, rfl, rfl⟩
    exact ⟨r, r.mem_cmd_cons_stored, rfl⟩

/-! ## The statements -/

/-- Settles O7: each clause is the step lemma of its transaction with the register laws of `get` and `put`. -/
theorem transactionsReadAndWrite : Obligations.TransactionsReadAndWrite := by
  intro s n d rest
  refine ⟨fun hwr => ⟨?cmd, ?readWrite, ?ignored⟩,
    fun hrd => ⟨s.unit.hostRead n, step_rd hrd, ?readCmd, ?readReg, ?readNone⟩⟩
  case cmd =>
    rintro rfl
    exact step_wr_cmd hwr
  case readWrite =>
    intro r hr hrw
    obtain rfl := Reg.number_of_ofNumber hr
    refine ⟨_, step_wr_of_ne_cmd hwr (Reg.number_ne_zero_of_readWrite hrw), rfl, rfl, ?_, ?_⟩
    · rw [Tcu.hostWrite_number]
      exact Tcu.get_put_same hrw d s.unit
    · intro q hq
      rw [Tcu.hostWrite_number]
      exact Tcu.get_put_other hq d s.unit
  case ignored =>
    intro hn hacc
    rw [step_wr_of_ne_cmd hwr hn, Tcu.hostWrite_of_not_readWrite hacc]
  case readCmd =>
    rintro rfl
    exact Tcu.hostRead_cmd s.unit
  case readReg =>
    intro r _ hr
    rw [Reg.number_of_ofNumber hr, Tcu.hostRead_number]
  case readNone => exact fun hn => Tcu.hostRead_of_unmapped hn s.unit

/-- Settles O10: the listed numbers lie outside the ranges of the read-write registers and, for reads, of the map. -/
theorem wrongDirectionAccesses : Obligations.WrongDirectionAccesses := by
  intro s n d rest
  constructor
  · intro hwr hn
    have hrange : 0x01 ≤ n.toNat ∧ (n.toNat ≤ 0x02 ∨ (0x09 ≤ n.toNat ∧ n.toNat ≤ 0x0F) ∨ 0x1A ≤ n.toNat) := by
      simp only [List.mem_cons, List.not_mem_nil, or_false] at hn
      omega
    have hcmd : n ≠ 0x00 := by
      rintro rfl
      exact absurd hrange.1 (by decide)
    rw [step_wr_of_ne_cmd hwr hcmd, Tcu.hostWrite_of_not_readWrite (Reg.not_readWrite_of_range hrange.2)]
  · intro hrd hn
    have hzero : s.unit.hostRead n = 0x00000000 := by
      obtain hcmd | hrange := hn
      · obtain rfl : n = 0x00 := BitVec.eq_of_toNat_eq hcmd
        exact Tcu.hostRead_cmd s.unit
      · exact Tcu.hostRead_of_unmapped (Reg.ofNumber_eq_none_of_range hrange) s.unit
    rw [step_rd hrd, hzero]

/-- Settles O8: the printed table is the list of the model's own rows, and a number names the register of its row. -/
theorem registerMapTable : Obligations.RegisterMapTable := by
  unfold Obligations.RegisterMapTable
  intro table
  have htable : table = (Reg.cmd :: Reg.stored).map Reg.printedRow := by decide
  refine ⟨fun n r => ?_, fun row hrow => ?_, fun s d => rfl, Tcu.hostRead_cmd⟩
  · simp only [htable, Reg.mem_map_printedRow, Reg.ofNumber_eq_some, ← BitVec.toNat_inj]
    exact ⟨fun h => ⟨_, _, h, rfl, rfl⟩, fun ⟨_, _, h, _, _⟩ => h⟩
  · obtain ⟨k, r, w, a⟩ := row
    rw [htable, Reg.mem_map_printedRow] at hrow
    obtain ⟨-, hw, ha⟩ := hrow
    exact ⟨hw.symm, ha.symm⟩

end Sys2Proof.Machine
end

section
/-! PROOFS. Section 2 of 30_encoding.md: the fields of a command word, the decoder against the encoder, the list of the
legal words, and the statement O3 from these. -/

namespace Sys2Proof

/-! ## The fields of a command word, as numbers (R56) -/

section Fields

variable (w : Word) (opcode imm8 : Byte)

theorem cmdRsvd_toNat : (cmdRsvd w).toNat = w.toNat / 2 ^ 16 := by
  rw [cmdRsvd, BitVec.extractLsb'_toNat, Nat.shiftRight_eq_div_pow]
  omega

theorem cmdOpcode_toNat : (cmdOpcode w).toNat = w.toNat / 2 ^ 8 % 2 ^ 8 := by
  rw [cmdOpcode, BitVec.extractLsb'_toNat, Nat.shiftRight_eq_div_pow]

theorem cmdImm8_toNat : (cmdImm8 w).toNat = w.toNat % 2 ^ 8 := by
  rw [cmdImm8, BitVec.extractLsb'_toNat, Nat.shiftRight_zero]

theorem cmdWord_toNat : (cmdWord opcode imm8).toNat = opcode.toNat * 2 ^ 8 + imm8.toNat := by
  calc (cmdWord opcode imm8).toNat
    _ = ((0x0000 : BitVec 16) ++ opcode).toNat <<< 8 ||| imm8.toNat := BitVec.toNat_append _ _
    _ = opcode.toNat <<< 8 ||| imm8.toNat := by rw [BitVec.toNat_append]; simp
    _ = opcode.toNat * 2 ^ 8 + imm8.toNat := by
      rw [← Nat.shiftLeft_add_eq_or_of_lt imm8.isLt, Nat.shiftLeft_eq]

/-- A word is its three fields put together. -/
theorem eq_cmdWord_iff {w : Word} {opcode imm8 : Byte} :
    w = cmdWord opcode imm8 ↔ cmdRsvd w = 0x0000 ∧ cmdOpcode w = opcode ∧ cmdImm8 w = imm8 := by
  simp only [← BitVec.toNat_inj, cmdRsvd_toNat, cmdOpcode_toNat, cmdImm8_toNat, cmdWord_toNat,
    BitVec.ofNat_eq_ofNat, BitVec.toNat_ofNat]
  omega

end Fields

/-! ## The decoder (R58, R60) -/

section Decoder

variable {w : Word} {i j : Instr} {b : Byte}

theorem noOperand_eq_ok_iff : noOperand j b = .ok i ↔ b = 0x00 ∧ j = i := by
  unfold noOperand
  split_ifs with hb
  · simp [hb]
  · exact iff_of_false nofun fun h => hb h.1

theorem exists_noOperand_eq_error_iff : (∃ e, noOperand j b = .error e) ↔ b ≠ 0x00 := by
  unfold noOperand
  split_ifs with hb
  · exact iff_of_false nofun (not_not.2 hb)
  · exact iff_of_true ⟨_, rfl⟩ hb

/-- The three ways of R58 in which a word is illegal. -/
theorem exists_decodeCmd_eq_error_iff :
    (∃ e, decodeCmd w = .error e) ↔
      cmdRsvd w ≠ 0x0000 ∨ cmdOpcode w ∉ [0x01, 0x02, 0x10, 0x20] ∨
      (cmdOpcode w ∈ [0x01, 0x10, 0x20] ∧ cmdImm8 w ≠ 0x00) := by
  unfold decodeCmd
  split_ifs with hrsvd h01 h02 h10 h20
  · exact iff_of_true ⟨_, rfl⟩ (.inl hrsvd)
  · rw [exists_noOperand_eq_error_iff, not_not.1 hrsvd, h01]
    simp
  · rw [not_not.1 hrsvd, h02]
    simp
  · rw [exists_noOperand_eq_error_iff, not_not.1 hrsvd, h10]
    simp
  · rw [exists_noOperand_eq_error_iff, not_not.1 hrsvd, h20]
    simp
  · have hopcode : cmdOpcode w ∉ [0x01, 0x02, 0x10, 0x20] := by
      simp only [List.mem_cons, List.not_mem_nil, h01, h02, h10, h20, or_self, not_false_eq_true]
    exact iff_of_true ⟨_, rfl⟩ (.inr (.inl hopcode))

theorem decodeCmd_encode (i : Instr) : decodeCmd (encode i) = .ok i := by
  cases i with
  | crcUpd imm8 =>
    obtain ⟨hrsvd, hopcode, himm8⟩ := eq_cmdWord_iff.1 (rfl : cmdWord 0x02 imm8 = _)
    simp only [decodeCmd, encode, hrsvd, hopcode, himm8]
    rfl
  | _ => decide

theorem eq_encode_of_decodeCmd (h : decodeCmd w = .ok i) : w = encode i := by
  unfold decodeCmd at h
  split_ifs at h with hrsvd h01 h02 h10 h20 <;> rw [not_not] at hrsvd
  · obtain ⟨himm8, rfl⟩ := noOperand_eq_ok_iff.1 h
    exact eq_cmdWord_iff.2 ⟨hrsvd, h01, himm8⟩
  · cases h
    exact eq_cmdWord_iff.2 ⟨hrsvd, h02, rfl⟩
  · obtain ⟨himm8, rfl⟩ := noOperand_eq_ok_iff.1 h
    exact eq_cmdWord_iff.2 ⟨hrsvd, h10, himm8⟩
  · obtain ⟨himm8, rfl⟩ := noOperand_eq_ok_iff.1 h
    exact eq_cmdWord_iff.2 ⟨hrsvd, h20, himm8⟩

theorem decodeCmd_eq_ok_iff : decodeCmd w = .ok i ↔ w = encode i :=
  ⟨eq_encode_of_decodeCmd, fun h => h ▸ decodeCmd_encode i⟩

theorem encode_injective : Function.Injective encode := by
  intro i j h
  have hdecode : (.ok i : Except Illegal Instr) = .ok j := by rw [← decodeCmd_encode i, h, decodeCmd_encode j]
  exact Except.ok.inj hdecode

end Decoder

/-! ## The legal words (R58: 1 + 256 + 1 + 1) -/

/-- Every command once: `CRC.CLR`, `ENC`, `DEC`, and `CRC.UPD` with each of the 256 bytes. -/
def Instr.all : List Instr :=
  [.crcClr, .enc, .dec] ++ (List.finRange 256).map fun k => .crcUpd (BitVec.ofFin k)

theorem Instr.mem_all (i : Instr) : i ∈ Instr.all := by
  cases i with
  | crcUpd imm8 => exact List.mem_append_right _ (List.mem_map.2 ⟨imm8.toFin, List.mem_finRange _, rfl⟩)
  | _ => simp [Instr.all]

theorem Instr.length_all : Instr.all.length = 259 := by
  simp [Instr.all]

theorem Instr.nodup_all : Instr.all.Nodup := by
  have hupd : Function.Injective fun k : Fin 256 => Instr.crcUpd (BitVec.ofFin k) := by
    intro k l h
    simpa using h
  simp [Instr.all, (List.nodup_finRange 256).map hupd]

theorem mem_map_encode_all_iff {w : Word} : w ∈ Instr.all.map encode ↔ ∃ i, decodeCmd w = .ok i := by
  simp [decodeCmd_eq_ok_iff, Instr.mem_all, @eq_comm _ w]

namespace Machine

/-- An illegal word writes `ERR_ILLEGAL` to `STATUS` (R109). -/
theorem command_of_error {w : Word} {e : Illegal} (h : decodeCmd w = .error e) (s : State) :
    command w s = .next { s with unit := { s.unit with status := 0x06 } } := by
  simp [command_eq, Tcu.afterWord, h, State.mapUnit, Tcu.setCode]

/-- Settles O3: the three ways of R58 on the fields as numbers, and the legal words as the words of all commands. -/
theorem illegalWordsAreAllOthers : Obligations.IllegalWordsAreAllOthers := by
  refine ⟨fun w => ?_, ⟨.unknownOpcode, by decide⟩, fun w s ⟨_, h⟩ => command_of_error h s,
    Instr.all.map encode, ?_, Instr.nodup_all.map encode_injective, fun w => mem_map_encode_all_iff⟩
  · rw [exists_decodeCmd_eq_error_iff]
    simp [← BitVec.toNat_inj, cmdRsvd_toNat, cmdOpcode_toNat, cmdImm8_toNat]
  · rw [List.length_map, Instr.length_all]

end Machine

end Sys2Proof
end

section
/-! PROOFS. Sections 1 and 2 of 40_crc.md: the loop of R65 on unbounded integers, the CRC of a sequence, the states that
`CRC.CLR` and `CRC.UPD` leave, and the statements O26, O27, O36 and O37 from these. -/

namespace Sys2Proof

/-- A command word as its opcode, shifted to its place, or'ed with its operand: the form in which R69 writes it. -/
theorem cmdWord_eq_or (opcode imm8 : Byte) :
    cmdWord opcode imm8 = opcode.setWidth 32 <<< 8 ||| imm8.setWidth 32 := by
  apply BitVec.eq_of_toNat_eq
  have hopcode : opcode.toNat <<< 8 < 2 ^ 32 := by
    rw [Nat.shiftLeft_eq]
    omega
  rw [cmdWord_toNat, BitVec.toNat_or, BitVec.toNat_shiftLeft, BitVec.toNat_setWidth_of_le (by decide),
    BitVec.toNat_setWidth_of_le (by decide), Nat.mod_eq_of_lt hopcode, ← Nat.shiftLeft_add_eq_or_of_lt imm8.isLt,
    Nat.shiftLeft_eq]

namespace Machine

/-! ## The loop of R65 on unbounded integers -/

/-- One iteration of R65, in the source's operators, on an unbounded integer. -/
def crcIteration (r : Nat) : Nat :=
  if r.testBit 7 then ((r <<< 1) ^^^ 0x1D) &&& 0xFF else (r <<< 1) &&& 0xFF

/-- Masking to 8 bits is what a byte does by its width, and it distributes over the exclusive-or. -/
theorem crcShift_toNat (r : Byte) : (crcShift r).toNat = crcIteration r.toNat := by
  have hbit : r.toNat.testBit 7 = r.msb := by rw [BitVec.msb_eq_getLsbD_last, BitVec.testBit_toNat]
  have hshift : (r <<< 1).toNat = r.toNat <<< 1 &&& 0xFF := by
    rw [BitVec.toNat_shiftLeft]
    exact (Nat.and_two_pow_sub_one_eq_mod _ 8).symm
  unfold crcShift crcIteration
  rw [hbit]
  split_ifs
  · rw [BitVec.toNat_xor, hshift, Nat.and_xor_distrib_right]
    rfl
  · exact hshift

theorem crcShifts_toNat (n : Nat) (r : Byte) : (crcShifts n r).toNat = crcIteration^[n] r.toNat := by
  induction n generalizing r with
  | zero => rfl
  | succ n ih => rw [crcShifts, ih, crcShift_toNat, Function.iterate_succ_apply]

theorem crc8Update_toNat (r b : Byte) : (crc8Update r b).toNat = crcIteration^[8] (r.toNat ^^^ b.toNat) := by
  rw [crc8Update, crcShifts_toNat, BitVec.toNat_xor]

/-- Settles O26: each iteration on a byte is the iteration on integers. -/
theorem crcUpdateLoop : Obligations.CrcUpdateLoop :=
  ⟨crc8Update_toNat, by decide⟩

/-! ## The CRC of a sequence (R66) -/

theorem crc8_concat (bytes : List Byte) (b : Byte) : crc8 (bytes ++ [b]) = crc8Update (crc8 bytes) b :=
  crc8_append_foldl bytes [b]

theorem crcBody_eq (t : Trailer) : crcBody t = [t[0], t[1], t[2], t[3], t[4], t[5], t[6], t[7], t[8]] := by
  apply List.ext_getElem
  · simp [crcBody, Config.crcSpan]
  · intro i _ hi
    replace hi : i < 9 := hi
    interval_cases i <;> simp [crcBody]

/-- Settles O27: a fold over an appended byte, and the first nine elements of a trailer one by one. -/
theorem crcOfSequence : Obligations.CrcOfSequence :=
  ⟨crc8_nil, crc8_concat, crcBody_eq, by decide +kernel⟩

/-! ## What the two commands leave (R68, R69) -/

/-- A byte equal to the register clears it. -/
@[simp] theorem crc8Update_self (r : Byte) : crc8Update r r = 0x00 := by
  rw [crc8Update, BitVec.xor_self]
  exact crcShifts_zero 8

theorem Tcu.crcClr_eq {w : Nat} (u : Tcu w) : u.crcClr = { u with crcr := 0x00, status := 0x00 } := by
  simp [Tcu.crcClr, Tcu.setCode, Config.crcInit]

theorem Tcu.crcUpd_eq {w : Nat} (b : Byte) (u : Tcu w) :
    u.crcUpd b = { u with crcr := crc8Update u.crcr b, status := 0x00 } := by
  simp [Tcu.crcUpd, Tcu.setCode]

/-- `CRC.UPD` with the value of the byte step given. -/
theorem exec_crcUpd_of_eq {b v : Byte} {s : State} (h : crc8Update s.unit.crcr b = v) :
    exec (.crcUpd b) s = .next { s with unit := { s.unit with crcr := v, status := 0x00 } } := by
  rw [exec_crcUpd, State.mapUnit, Tcu.crcUpd_eq, h]

/-- Settles O36: an operand of `CRC.CLR` other than 0 is the third way of R58 in which a word is illegal. -/
theorem crcClrResult : Obligations.CrcClrResult := by
  refine ⟨by decide, fun imm8 himm8 => ?_, fun s => ?_⟩
  · have hword : 0x00000100 ||| imm8.setWidth 32 = cmdWord 0x01 imm8 := (cmdWord_eq_or 0x01 imm8).symm
    obtain ⟨-, hopcode, hoperand⟩ := eq_cmdWord_iff.1 hword
    rw [exists_decodeCmd_eq_error_iff, hopcode, hoperand]
    exact .inr (.inr ⟨by decide, himm8⟩)
  · rw [exec_crcClr, State.mapUnit, Tcu.crcClr_eq]

/-- Settles O37: each clause is the state after `CRC.UPD` at the value of its byte step. -/
theorem crcUpdResult : Obligations.CrcUpdResult := by
  refine ⟨cmdWord_eq_or 0x02, fun imm8 s => exec_crcUpd_of_eq rfl, fun s => exec_crcUpd_of_eq (crc8Update_self _),
    fun s hzero => ⟨?_, ?_⟩⟩
  · have hkept : crc8Update s.unit.crcr 0x00 = s.unit.crcr := by rw [hzero, crc8Update_self]
    exact exec_crcUpd_of_eq hkept
  · have hexample : crc8Update s.unit.crcr 0x41 = 0x0E := by
      rw [hzero]
      decide
    exact exec_crcUpd_of_eq hexample

end Machine

end Sys2Proof
end

section
/-! PROOFS. Sections 1 and 2 of 41_pack.md: the bytes of a packed trailer for inputs of any width, the two ways in which the
range check fails, and the statement O39 from these. -/

namespace Sys2Proof

/-- An operand other than 0 makes the word of a command without operand illegal (R58). -/
theorem exists_decodeCmd_cmdWord_eq_error {opcode imm8 : Byte} (hopcode : opcode ∈ [0x01, 0x10, 0x20])
    (himm8 : imm8 ≠ 0x00) : ∃ e, decodeCmd (cmdWord opcode imm8) = .error e := by
  obtain ⟨-, hop, hoperand⟩ := eq_cmdWord_iff.1 (rfl : cmdWord opcode imm8 = _)
  rw [exists_decodeCmd_eq_error_iff, hop, hoperand]
  exact .inr (.inr ⟨hopcode, himm8⟩)

namespace Machine

/-! ## The bytes of a trailer (R50, R76) -/

section Bytes

variable {w : Nat} (c : Config) (epoch root tip0 tip1 : BitVec w) (mac8 : Byte)

/-- The source's formula puts the low 12 bits of the tips side by side. -/
theorem packTips_eq_append : packTips tip0 tip1 = tip0.extractLsb' 0 12 ++ tip1.extractLsb' 0 12 := by
  have hmask (n : Nat) : n &&& 0xFFF = n % 2 ^ 12 := Nat.and_two_pow_sub_one_eq_mod n 12
  calc packTips tip0 tip1
    _ = BitVec.ofNat 24 (tip0.extractLsb' 0 12 ++ tip1.extractLsb' 0 12).toNat := by
      rw [packTips, hmask, hmask, BitVec.toNat_append]
      rfl
    _ = tip0.extractLsb' 0 12 ++ tip1.extractLsb' 0 12 := by
      rw [BitVec.ofNat_toNat, BitVec.setWidth_eq]

/-- Byte 4 of a trailer is `tip0[11:4]`. -/
theorem packTips_high_byte : (packTips tip0 tip1).extractLsb' 16 8 = tip0.extractLsb' 4 8 := by
  rw [packTips_eq_append, BitVec.extractLsb'_append_eq_of_le (by decide),
    BitVec.extractLsb'_extractLsb'_of_le (by decide)]

/-- Byte 5 of a trailer is `tip0[3:0] : tip1[11:8]`. -/
theorem packTips_middle_byte :
    (packTips tip0 tip1).extractLsb' 8 8 = tip0.extractLsb' 0 4 ++ tip1.extractLsb' 8 4 := by
  rw [packTips_eq_append, BitVec.extractLsb'_append_eq_ite, dif_pos (by decide), dif_neg (by decide),
    BitVec.extractLsb'_extractLsb'_of_le (by decide), BitVec.extractLsb'_extractLsb'_of_le (by decide)]
  rfl

/-- Byte 6 of a trailer is `tip1[7:0]`. -/
theorem packTips_low_byte : (packTips tip0 tip1).extractLsb' 0 8 = tip1.extractLsb' 0 8 := by
  rw [packTips_eq_append, BitVec.extractLsb'_append_eq_of_add_le (by decide),
    BitVec.extractLsb'_extractLsb'_of_le (by decide)]

theorem packBody_toList :
    (packBody c epoch root tip0 tip1 mac8).toList =
      [0xCF, epoch.extractLsb' 0 8, root.extractLsb' 8 8, root.extractLsb' 0 8,
       tip0.extractLsb' 4 8, tip0.extractLsb' 0 4 ++ tip1.extractLsb' 8 4, tip1.extractLsb' 0 8,
       mac8, c.rsvd8] := by
  rw [← packTips_high_byte tip0 tip1, ← packTips_middle_byte, ← packTips_low_byte tip0 tip1]
  rfl

theorem packTrailer_toList :
    (packTrailer c epoch root tip0 tip1 mac8).toList =
      (packBody c epoch root tip0 tip1 mac8).toList ++ [crc8 (packBody c epoch root tip0 tip1 mac8).toList] :=
  Vector.toList_push

end Bytes

/-! ## The command (R75, R77) -/

/-- The two ways in which the one range check fails. -/
theorem rangeOk_eq_false_iff {w : Nat} {epoch root : BitVec w} :
    rangeOk epoch root = false ↔ 256 ≤ epoch.toNat ∨ 65536 ≤ root.toNat := by
  rw [Bool.eq_false_iff, Ne, rangeOk_iff]
  omega

/-- Settles O39: the packed trailer is its body and the CRC of its body, and the range check decides between the two
states `ENC` can leave. -/
theorem encResult : Obligations.EncResult := by
  refine ⟨by decide, fun imm8 himm8 => ?_, fun s => ⟨fun hrange => ?_, fun hrange => ?_⟩⟩
  · have hword : 0x00001000 ||| imm8.setWidth 32 = cmdWord 0x10 imm8 := (cmdWord_eq_or 0x10 imm8).symm
    rw [hword]
    exact exists_decodeCmd_cmdWord_eq_error (by decide) himm8
  · refine ⟨packTrailer Config.tcu s.unit.epochIn s.unit.rootIn s.unit.tip0In s.unit.tip1In s.unit.mac8In, ?_, ?_⟩
    · rw [packTrailer_toList, packBody_toList]
    · rw [exec_enc, State.mapUnit, Tcu.encode_of_rangeOk (rangeOk_iff.2 hrange)]
      rfl
  · rw [exec_enc, State.mapUnit, Tcu.encode_of_not_rangeOk (rangeOk_eq_false_iff.2 hrange)]

end Machine

end Sys2Proof
end

section
/-! PROOFS. Sections 1 and 2 of 42_unpack.md: the outcome of each check of a candidate, the fields of a trailer as numbers,
and the statement O46 from these. -/

namespace Sys2Proof.Machine

/-! ## The checks, one outcome each (R85) -/

section Checks

variable {w : Nat} {len : BitVec w} {t : Trailer} {m : Byte}

theorem checkTrailer_of_length_ne (hlen : len.toNat ≠ 10) : checkTrailer len t m = .errLength :=
  if_pos hlen

theorem checkTrailer_of_magic_ne (hlen : len.toNat = 10) (hmagic : t[0] ≠ 0xCF) : checkTrailer len t m = .errMagic :=
  (if_neg (not_not.2 hlen)).trans (if_pos hmagic)

/-- The checks that are left once the first two have passed. -/
theorem checkTrailer_of_magic (hlen : len.toNat = 10) (hmagic : t[0] = 0xCF) :
    checkTrailer len t m = if crc8 (crcBody t) ≠ t[9] then .errCrc else if m ≠ t[7] then .errMac else .ok :=
  (if_neg (not_not.2 hlen)).trans (if_neg (not_not.2 hmagic))

theorem checkTrailer_of_crc_ne (hlen : len.toNat = 10) (hmagic : t[0] = 0xCF) (hcrc : crc8 (crcBody t) ≠ t[9]) :
    checkTrailer len t m = .errCrc := by
  rw [checkTrailer_of_magic hlen hmagic, if_pos hcrc]

theorem checkTrailer_of_mac_ne (hlen : len.toNat = 10) (hmagic : t[0] = 0xCF) (hcrc : crc8 (crcBody t) = t[9])
    (hmac : m ≠ t[7]) : checkTrailer len t m = .errMac := by
  rw [checkTrailer_of_magic hlen hmagic, if_neg (not_not.2 hcrc), if_pos hmac]

theorem checkTrailer_of_passes (hlen : len.toNat = 10) (hmagic : t[0] = 0xCF) (hcrc : crc8 (crcBody t) = t[9])
    (hmac : m = t[7]) : checkTrailer len t m = .ok := by
  rw [checkTrailer_of_magic hlen hmagic, if_neg (not_not.2 hcrc), if_neg (not_not.2 hmac)]

end Checks

/-! ## The fields as numbers (R49, R51, R86) -/

section FieldNumbers

variable (t : Trailer)

/-- Bytes put together, the first the most significant. -/
theorem append_byte_toNat {n : Nat} (x : BitVec n) (b : Byte) : (x ++ b).toNat = x.toNat * 256 + b.toNat := by
  rw [BitVec.toNat_append, ← Nat.shiftLeft_add_eq_or_of_lt b.isLt, Nat.shiftLeft_eq]

theorem unpackTrailer_root_toNat : (unpackTrailer t).root.toNat = t[2].toNat * 256 + t[3].toNat :=
  append_byte_toNat t[2] t[3]

theorem tipBytes_toNat : (t[4] ++ t[5] ++ t[6]).toNat = (t[4].toNat * 256 + t[5].toNat) * 256 + t[6].toNat := by
  rw [append_byte_toNat, append_byte_toNat]

/-- `TIP0` is the high half of bytes 4 to 6. -/
theorem unpackTrailer_tip0_toNat : (unpackTrailer t).tip0.toNat = t[4].toNat * 16 + t[5].toNat / 16 := by
  have h4 := t[4].isLt
  have h5 := t[5].isLt
  have h6 := t[6].isLt
  calc (unpackTrailer t).tip0.toNat
    _ = (t[4] ++ t[5] ++ t[6]).toNat >>> 12 % 2 ^ 12 := BitVec.extractLsb'_toNat 12 12 _
    _ = t[4].toNat * 16 + t[5].toNat / 16 := by
      rw [tipBytes_toNat, Nat.shiftRight_eq_div_pow]
      omega

/-- `TIP1` is the low half of bytes 4 to 6. -/
theorem unpackTrailer_tip1_toNat : (unpackTrailer t).tip1.toNat = t[5].toNat % 16 * 256 + t[6].toNat := by
  have h6 := t[6].isLt
  calc (unpackTrailer t).tip1.toNat
    _ = (t[4] ++ t[5] ++ t[6]).toNat >>> 0 % 2 ^ 12 := BitVec.extractLsb'_toNat 0 12 _
    _ = t[5].toNat % 16 * 256 + t[6].toNat := by
      rw [tipBytes_toNat, Nat.shiftRight_zero]
      omega

end FieldNumbers

/-! ## The command (R87) -/

/-- `DEC` of a candidate that fails a check reports the code of that check and nothing else. -/
theorem exec_dec_of_fails {s : State} {c : Code} (hcheck : checkTrailer s.unit.tlen s.unit.trl s.unit.mac8In = c)
    (hc : c ≠ .ok) : exec .dec s = .next { s with unit := { s.unit with status := statusOf c } } := by
  subst hcheck
  rw [exec_dec, State.mapUnit, Tcu.decode_of_ne_ok hc]
  rfl

/-- Settles O46: the first failing check gives the code `DEC` reports, and the fields are read as numbers. -/
theorem decResult : Obligations.DecResult := by
  refine ⟨by decide, fun imm8 himm8 => ?illegal, fun s => ?_⟩
  case illegal =>
    have hword : 0x00002000 ||| imm8.setWidth 32 = cmdWord 0x20 imm8 := (cmdWord_eq_or 0x20 imm8).symm
    rw [hword]
    exact exists_decodeCmd_cmdWord_eq_error (by decide) himm8
  intro u t crc fails
  have hfails {c : Code} (hcheck : checkTrailer u.tlen t u.mac8In = c) (hc : c ≠ .ok) : fails (statusOf c) :=
    exec_dec_of_fails hcheck hc
  have hlen : u.tlen = 10 ↔ u.tlen.toNat = 10 := BitVec.toNat_inj.symm
  have hspan : crc = crc8 (crcBody t) := congrArg crc8 (crcBody_eq t).symm
  rw [hlen, hspan]
  refine ⟨fun hlength => ?length, fun h10 hmagic => ?magic, fun h10 hCF hcrc => ?crc, fun h10 hCF hcrc hmac => ?mac,
    fun h10 hCF hcrc hmac => ?ok⟩
  case length => exact hfails (checkTrailer_of_length_ne (mt hlen.2 hlength)) (by decide)
  case magic => exact hfails (checkTrailer_of_magic_ne h10 hmagic) (by decide)
  case crc => exact hfails (checkTrailer_of_crc_ne h10 hCF hcrc) (by decide)
  case mac => exact hfails (checkTrailer_of_mac_ne h10 hCF hcrc hmac) (by decide)
  case ok =>
    refine ⟨_, _, _, unpackTrailer_root_toNat t, unpackTrailer_tip0_toNat t, unpackTrailer_tip1_toNat t, ?_⟩
    rw [exec_dec, State.mapUnit, Tcu.decode_of_ok (checkTrailer_of_passes h10 hCF hcrc hmac)]
    rfl

end Sys2Proof.Machine
end

section
/-! PROOFS. Sections 1 and 2 of 60_exceptions.md: the two ways in which a command word can end, and the statements O22 and
O23 from these. -/

namespace Sys2Proof.Machine

/-! ## How a command word ends: with `OK`, or as `raise` and nothing else (R99) -/

section Ends

variable {c : Config} {u : Tcu c.wIn}

theorem Tcu.encode_status_ok_or_raise :
    (u.encode c).status = statusOf .ok ∨ ∃ e, u.encode c = u.raise e := by
  cases hrange : rangeOk u.epochIn u.rootIn with
  | true =>
    rw [Tcu.encode_of_rangeOk hrange]
    exact .inl rfl
  | false => exact .inr ⟨.errRange, Tcu.encode_of_not_rangeOk hrange⟩

theorem Tcu.decode_status_ok_or_raise {w : Nat} {u : Tcu w} :
    u.decode.status = statusOf .ok ∨ ∃ e, u.decode = u.raise e := by
  by_cases hcheck : checkTrailer u.tlen u.trl u.mac8In = .ok
  · rw [Tcu.decode_of_ok hcheck]
    exact .inl rfl
  · exact .inr ⟨_, Tcu.decode_of_ne_ok hcheck⟩

theorem Tcu.afterCommand_status_ok_or_raise (i : Instr) :
    (u.afterCommand c i).status = statusOf .ok ∨ ∃ e, u.afterCommand c i = u.raise e := by
  cases i with
  | crcClr | crcUpd => exact .inl rfl
  | enc => exact Tcu.encode_status_ok_or_raise
  | dec => exact Tcu.decode_status_ok_or_raise

theorem Tcu.afterWord_status_ok_or_raise (w : Word) :
    (u.afterWord c w).status = statusOf .ok ∨ ∃ e, u.afterWord c w = u.raise e := by
  unfold Tcu.afterWord
  split
  · exact Tcu.afterCommand_status_ok_or_raise _
  · exact .inr ⟨.errIllegal, rfl⟩

end Ends

theorem Tcu.codeBits_eq_zero_of_status_ok {w : Nat} {u : Tcu w} (h : u.status = statusOf .ok) : u.codeBits = 0x0 := by
  rw [Tcu.codeBits, h]
  decide

/-! ## The statements -/

/-- Settles O23: a word that does not end with `OK` ends as `raise`, which writes `STATUS` only. -/
theorem failingCommandChangesStatusOnly : Obligations.FailingCommandChangesStatusOnly := by
  intro w s
  refine ⟨_, command_eq w s, fun hfail => ?_⟩
  obtain hok | ⟨e, hraise⟩ := Tcu.afterWord_status_ok_or_raise (c := Config.tcu) (u := s.unit) w
  · exact absurd (Tcu.codeBits_eq_zero_of_status_ok hok) hfail
  · rw [State.mapUnit, hraise]
    rfl

/-- Settles O22: the step runs the word, and both listed words fail to decode. -/
theorem illegalCommandReported : Obligations.IllegalCommandReported :=
  ⟨fun _ _ _ _ hwr herr => (step_wr_cmd hwr).trans (command_of_error herr _), ⟨.unknownOpcode, by decide⟩,
    ⟨.operandNotZero, by decide⟩⟩

end Sys2Proof.Machine
end

section
/-! PROOFS. Section 2 of 30_encoding.md: the decoder as the inverse of the encoder and as the mask and match table, a step
as the command it takes, and the statements O1, O2, O4, O5 and O6 from these. -/

namespace Sys2Proof

/-- Settles O1: each arm of the decoder fixes the three fields of the word, and `encode` puts the same three together. -/
theorem decodeEncodeAgree : Obligations.DecodeEncodeAgree :=
  fun _ _ => decodeCmd_eq_ok_iff

/-! ## The rows of the command table (R57) -/

section Rows

variable (w : Word)

/-- The mask of `CRC.UPD` clears the operand. -/
theorem and_operandMask_eq : w &&& (0xFFFFFF00 : Word) = w >>> 8 <<< 8 :=
  (BitVec.shiftLeft_ushiftRight (x := w) (n := 8)).symm

theorem and_operandMask_toNat : (w &&& 0xFFFFFF00).toNat = w.toNat / 256 * 256 := by
  have hw := w.isLt
  rw [and_operandMask_eq, BitVec.toNat_shiftLeft, BitVec.toNat_ushiftRight, Nat.shiftLeft_eq,
    Nat.shiftRight_eq_div_pow]
  omega

/-- Under the full mask a row is selected by the word of its command only. -/
theorem decodeCmd_eq_ok_iff_fullMask {i : Instr} : decodeCmd w = .ok i ↔ w &&& 0xFFFFFFFF = encode i := by
  have hmask : w &&& 0xFFFFFFFF = w := BitVec.and_allOnes
  rw [decodeCmd_eq_ok_iff, hmask]

theorem decodeCmd_eq_crcUpd_iff (b : Byte) :
    decodeCmd w = .ok (.crcUpd b) ↔ w &&& 0xFFFFFF00 = 0x00000200 ∧ b.toNat = w.toNat % 256 := by
  have hb := b.isLt
  rw [decodeCmd_eq_ok_iff, encode, ← BitVec.toNat_inj, ← BitVec.toNat_inj, cmdWord_toNat, and_operandMask_toNat]
  change w.toNat = 2 * 2 ^ 8 + b.toNat ↔ w.toNat / 256 * 256 = 512 ∧ b.toNat = w.toNat % 256
  omega

/-- Every row's mask keeps the bits above the operand, so a selected row's pattern can be read off the word there. -/
theorem pattern_eq_of_selects {row : CmdRow} (hrow : row ∈ cmdTable) (h : row.selects w = true) :
    row.pattern = w &&& 0xFFFFFF00 := by
  have hmask : row.mask &&& 0xFFFFFF00 = 0xFFFFFF00 ∧ row.pattern &&& 0xFFFFFF00 = row.pattern := by
    exact (by decide : ∀ row ∈ cmdTable, row.mask &&& 0xFFFFFF00 = 0xFFFFFF00 ∧
      row.pattern &&& 0xFFFFFF00 = row.pattern) row hrow
  obtain ⟨hkeep, hpattern⟩ := hmask
  calc row.pattern
    _ = w &&& row.mask &&& 0xFFFFFF00 := by rw [beq_iff_eq.1 h, hpattern]
    _ = w &&& 0xFFFFFF00 := by rw [BitVec.and_assoc, hkeep]

/-- The four patterns differ, so a word selects one row at most. -/
theorem countP_selects_le_one : cmdTable.countP (fun row => row.selects w) ≤ 1 := by
  have hnodup : (cmdTable.map CmdRow.pattern).Nodup := by decide
  calc cmdTable.countP (fun row => row.selects w)
    _ ≤ cmdTable.countP (fun row => row.pattern == w &&& 0xFFFFFF00) :=
      List.countP_mono_left fun _ hrow h => beq_iff_eq.2 (pattern_eq_of_selects w hrow h)
    _ = (cmdTable.map CmdRow.pattern).count (w &&& 0xFFFFFF00) := by
      rw [List.count, List.countP_map]
      rfl
    _ ≤ 1 := List.nodup_iff_count_le_one.1 hnodup _

end Rows

/-- Settles O2: three rows compare the whole word, the row of `CRC.UPD` all but the operand. -/
theorem commandTableSelects : Obligations.CommandTableSelects := fun w =>
  ⟨decodeCmd_eq_ok_iff_fullMask w, decodeCmd_eq_crcUpd_iff w, decodeCmd_eq_ok_iff_fullMask w,
    decodeCmd_eq_ok_iff_fullMask w, countP_selects_le_one w⟩

/-- Settles O4: the listed words, one by one. -/
theorem listedWordsDecode : Obligations.ListedWordsDecode := by
  unfold Obligations.ListedWordsDecode
  decide

namespace Machine

/-! ## A step and the command it takes (R20, R37) -/

theorem command_of_ok {w : Word} {i : Instr} (h : decodeCmd w = .ok i) (s : State) : command w s = exec i s := by
  simp [command, h]

/-- The word of `withFetchWord`, taken as a 32-bit number, is the word itself. -/
theorem State.withFetchWord_toNat (s : State) (w : Word) : s.withFetchWord 32 w.toNat = s.issueCommand w := by
  rw [State.withFetchWord, Nat.mod_eq_of_lt w.isLt, BitVec.ofNat_toNat, BitVec.setWidth_eq]

/-- Settles O5: both ways the next event is the `WR` of the word to `CMD`. -/
theorem stepRunsDecodedCommand : Obligations.StepRunsDecodedCommand := by
  refine ⟨fun s w i rest hwr hi => ?_, fun s w i hi => ?_⟩
  · rw [step_wr_cmd hwr, command_of_ok hi]
  · rw [State.withFetchWord_toNat, step_wr_cmd (State.issueCommand_pending w s), command_of_ok hi]
    rfl

/-- Settles O6: a step takes the first pending event, and here there is none. -/
theorem unitWaitsForHost : Obligations.UnitWaitsForHost := by
  intro s hempty
  simp [step, nextEvent, hempty]

end Machine

end Sys2Proof
end

section
/-! PROOFS. Sections 2, 3 and 5 of 10_state.md and section 1 of 60_exceptions.md: the kinds of event, what each may change, the
codes each command ends with, and the statements O13, O20, O24, O25 and O9 from these. -/

namespace Sys2Proof.Machine

/-! ## The kinds of event (R31, R113) -/

/-- A legal command word, an illegal one, a write to another number, a read, or a reset. -/
theorem Event.kinds {w : Nat} (e : Event w) :
    (∃ i, e = .wr Reg.cmd.number (encode i)) ∨ (∃ d x, e = .wr Reg.cmd.number d ∧ decodeCmd d = .error x) ∨
    (∃ n d, n ≠ Reg.cmd.number ∧ e = .wr n d) ∨ (∃ n, e = .rd n) ∨ ∃ draws, e = .reset draws := by
  cases e with
  | wr n d =>
    by_cases hn : n = Reg.cmd.number
    · subst hn
      cases hd : decodeCmd d with
      | ok i => exact .inl ⟨i, by rw [eq_encode_of_decodeCmd hd]⟩
      | error x => exact .inr (.inl ⟨d, x, rfl, hd⟩)
    · exact .inr (.inr (.inl ⟨n, d, hn, rfl⟩))
  | rd n => exact .inr (.inr (.inr (.inl ⟨n, rfl⟩)))
  | reset draws => exact .inr (.inr (.inr (.inr ⟨draws, rfl⟩)))

section Kinds

variable {c : Config} {u : Tcu c.wIn} {i : Instr} {n : RegNum} {d : Word} {x : Illegal} {draws : Draws c.wIn}

@[simp] theorem Tcu.afterEvent_command :
    u.afterEvent c (.wr Reg.cmd.number (Sys2Proof.encode i)) = u.afterCommand c i := by
  simp [Tcu.afterEvent, Tcu.afterWord, decodeCmd_encode]

theorem Tcu.afterEvent_illegal (hx : decodeCmd d = .error x) :
    u.afterEvent c (.wr Reg.cmd.number d) = u.setCode .errIllegal := by
  simp [Tcu.afterEvent, Tcu.afterWord, hx]

theorem Tcu.afterEvent_wr (hn : n ≠ Reg.cmd.number) : u.afterEvent c (.wr n d) = u.hostWrite n d :=
  if_neg hn

@[simp] theorem Tcu.afterEvent_reset : u.afterEvent c (.reset draws) = Tcu.resetWith draws := rfl

@[simp] theorem eventCommand_command {w : Nat} :
    eventCommand (.wr Reg.cmd.number (encode i) : Event w) = some i := by
  simp [eventCommand, decodeCmd_encode, Except.toOption]

theorem eventCommand_illegal {w : Nat} (hx : decodeCmd d = .error x) :
    eventCommand (.wr Reg.cmd.number d : Event w) = none := by
  simp [eventCommand, hx, Except.toOption]

theorem eventCommand_wr {w : Nat} (hn : n ≠ Reg.cmd.number) : eventCommand (.wr n d : Event w) = none :=
  if_neg hn

@[simp] theorem mayChange_command {w : Nat} {u : Tcu w} :
    mayChange u (.wr Reg.cmd.number (encode i)) = commandMayChange u i := by
  simp [mayChange, decodeCmd_encode]

theorem mayChange_illegal {w : Nat} {u : Tcu w} (hx : decodeCmd d = .error x) :
    mayChange u (.wr Reg.cmd.number d) = [.status] := by
  simp [mayChange, hx]

theorem mayChange_wr_number {w : Nat} {u : Tcu w} {r : Reg} (hr : r.access = .readWrite) :
    mayChange u (.wr r.number d) = [r] := by
  have hcmd : r.number ≠ Reg.cmd.number := Reg.number_ne_zero_of_readWrite hr
  simp [mayChange, hcmd, hr]

end Kinds

/-! ## What a command and an event leave unchanged (R28) -/

theorem trl_mem_trlRegs (i : Fin 10) : Reg.trl i ∈ trlRegs :=
  List.mem_map_of_mem (List.mem_finRange i)

theorem Tcu.get_setCode {w : Nat} {r : Reg} (hr : r ≠ .status) (code : Code) (u : Tcu w) :
    (u.setCode code).get r = u.get r := by
  cases r with
  | status => exact absurd rfl hr
  | _ => rfl

section Frame

variable {c : Config} {u : Tcu c.wIn} {r : Reg}

theorem Tcu.get_crcClr_of_not_mem {w : Nat} {u : Tcu w} (hr : r ∉ commandMayChange u .crcClr) :
    u.crcClr.get r = u.get r := by
  cases r with
  | crcr | status => simp [commandMayChange] at hr
  | _ => rfl

theorem Tcu.get_crcUpd_of_not_mem {w : Nat} {u : Tcu w} {b : Byte} (hr : r ∉ commandMayChange u (.crcUpd b)) :
    (u.crcUpd b).get r = u.get r := by
  cases r with
  | crcr | status => simp [commandMayChange] at hr
  | _ => rfl

theorem Tcu.get_encode_of_not_mem (hr : r ∉ commandMayChange u .enc) : (u.encode c).get r = u.get r := by
  unfold commandMayChange at hr
  cases hrange : rangeOk u.epochIn u.rootIn with
  | true =>
    rw [Tcu.encode_of_rangeOk hrange]
    cases r with
    | trl i => simp [hrange, trl_mem_trlRegs] at hr
    | tlen | status => simp [hrange] at hr
    | _ => rfl
  | false =>
    rw [Tcu.encode_of_not_rangeOk hrange]
    exact Tcu.get_setCode (by simpa [hrange] using hr) .errRange u

theorem Tcu.get_decode_of_not_mem {w : Nat} {u : Tcu w} (hr : r ∉ commandMayChange u .dec) :
    u.decode.get r = u.get r := by
  unfold commandMayChange at hr
  by_cases hcheck : checkTrailer u.tlen u.trl u.mac8In = .ok
  · rw [Tcu.decode_of_ok hcheck]
    cases r with
    | epochOut | rootOut | tip0Out | tip1Out | status => simp [hcheck] at hr
    | _ => rfl
  · rw [Tcu.decode_of_ne_ok hcheck]
    exact Tcu.get_setCode (by simpa [hcheck] using hr) _ u

theorem Tcu.get_afterCommand_of_not_mem {i : Instr} (hr : r ∉ commandMayChange u i) :
    (u.afterCommand c i).get r = u.get r := by
  cases i with
  | crcClr => exact Tcu.get_crcClr_of_not_mem hr
  | crcUpd b => exact Tcu.get_crcUpd_of_not_mem hr
  | enc => exact Tcu.get_encode_of_not_mem hr
  | dec => exact Tcu.get_decode_of_not_mem hr

theorem Tcu.get_hostWrite_of_ne {w : Nat} {u : Tcu w} {n : RegNum} {d : Word} (hr : n ≠ r.number) :
    (u.hostWrite n d).get r = u.get r := by
  unfold Tcu.hostWrite
  cases hq : Reg.ofNumber n with
  | none => rfl
  | some q =>
    refine Tcu.get_put_other ?_ d u
    rintro rfl
    exact hr (Reg.number_of_ofNumber hq)

/-- The frame table for a `WR` to another number than `CMD`. -/
theorem Tcu.get_hostWrite_of_not_mem {n : RegNum} {d : Word} (hn : n ≠ Reg.cmd.number)
    (hr : r ∉ mayChange u (.wr n d)) : (u.hostWrite n d).get r = u.get r := by
  by_cases hnr : n = r.number
  · subst hnr
    have hro : r.access ≠ .readWrite := fun hrw => hr (by simp [mayChange_wr_number hrw])
    rw [Tcu.hostWrite_number, Tcu.put_of_not_readWrite hro]
  · exact Tcu.get_hostWrite_of_ne hnr

/-- The frame table (R28). -/
theorem Tcu.get_afterEvent_of_not_mem {e : Event c.wIn} (hr : r ∉ mayChange u e) :
    (u.afterEvent c e).get r = u.get r := by
  obtain ⟨i, rfl⟩ | ⟨d, x, rfl, hx⟩ | ⟨n, d, hn, rfl⟩ | ⟨n, rfl⟩ | ⟨draws, rfl⟩ := e.kinds
  · rw [mayChange_command] at hr
    rw [Tcu.afterEvent_command, Tcu.get_afterCommand_of_not_mem hr]
  · rw [mayChange_illegal hx, List.mem_singleton] at hr
    rw [Tcu.afterEvent_illegal hx, Tcu.get_setCode hr]
  · rw [Tcu.afterEvent_wr hn, Tcu.get_hostWrite_of_not_mem hn hr]
  · rfl
  · obtain rfl : r = .cmd := (List.mem_cons.1 r.mem_cmd_cons_stored).resolve_right hr
    rfl

end Frame

/-- What a step does with the event it takes. -/
theorem step_eq_of_pending {s : State} {e : HostEvent} {rest : List HostEvent} (h : s.pending = e :: rest) :
    step s = .next { unit := s.unit.afterEvent Config.tcu e, pending := rest, reads := s.reads ++ s.unit.answers e } :=
  (step_of_pending h).trans (transact_eq e _)

/-- Settles O13: for each kind of event, a register outside its entry of the table reads as before. -/
theorem frameTable : Obligations.FrameTable :=
  fun _ _ _ hpending => ⟨_, step_eq_of_pending hpending, rfl, fun _ hr => Tcu.get_afterEvent_of_not_mem hr⟩

/-! ## The codes a command ends with (R97) -/

section Codes

variable {c : Config} (u : Tcu c.wIn)

theorem checkTrailer_mem_possibleCodes {w : Nat} (len : BitVec w) (t : Trailer) (m : Byte) :
    checkTrailer len t m ∈ possibleCodes .dec := by
  unfold checkTrailer
  split_ifs <;> decide

/-- The status that `DEC` leaves is the outcome of the checks. -/
theorem Tcu.decode_status {w : Nat} (u : Tcu w) :
    u.decode.status = statusOf (checkTrailer u.tlen u.trl u.mac8In) := by
  by_cases hcheck : checkTrailer u.tlen u.trl u.mac8In = .ok
  · rw [Tcu.decode_of_ok hcheck, hcheck, statusOf_ok]
  · rw [Tcu.decode_of_ne_ok hcheck, Tcu.setCode_status]

theorem Tcu.encode_status :
    (u.encode c).status = statusOf (if rangeOk u.epochIn u.rootIn then .ok else .errRange) := by
  cases hrange : rangeOk u.epochIn u.rootIn with
  | true => rw [Tcu.encode_of_rangeOk hrange, if_pos rfl, statusOf_ok]
  | false => rw [Tcu.encode_of_not_rangeOk hrange, if_neg (by decide), statusOf_errRange]

theorem Tcu.afterCommand_status_mem (i : Instr) :
    ∃ code ∈ possibleCodes i, (u.afterCommand c i).status = statusOf code := by
  cases i with
  | crcClr | crcUpd => exact ⟨.ok, List.mem_singleton_self _, rfl⟩
  | enc =>
    refine ⟨_, ?_, u.encode_status⟩
    split_ifs <;> decide
  | dec => exact ⟨_, checkTrailer_mem_possibleCodes .., u.decode_status⟩

/-- Only a command word and a reset write `STATUS`, and both write one of the seven codes. -/
theorem Tcu.afterEvent_status (e : Event c.wIn) :
    (u.afterEvent c e).status = u.status ∨ ∃ code, (u.afterEvent c e).status = statusOf code := by
  obtain ⟨i, rfl⟩ | ⟨d, x, rfl, hx⟩ | ⟨n, d, hn, rfl⟩ | ⟨n, rfl⟩ | ⟨draws, rfl⟩ := e.kinds
  · obtain ⟨code, -, hcode⟩ := u.afterCommand_status_mem i
    exact .inr ⟨code, by rw [Tcu.afterEvent_command, hcode]⟩
  · exact .inr ⟨.errIllegal, by rw [Tcu.afterEvent_illegal hx, Tcu.setCode_status]⟩
  · exact .inl (by rw [Tcu.afterEvent_wr hn, Tcu.hostWrite_status])
  · exact .inl rfl
  · exact .inr ⟨.ok, by rw [Tcu.afterEvent_reset, Tcu.resetWith_status, statusOf_ok]⟩

end Codes

/-- A status that reports a code is legal. -/
theorem Tcu.statusWf_of_status {w : Nat} {u : Tcu w} {code : Code} (h : u.status = statusOf code) :
    u.statusWf = true := by
  have hself : u.setCode code = u := by rw [Tcu.setCode, ← h]
  rw [← hself, Tcu.setCode_statusWf]

theorem Tcu.statusWf_congr {w w' : Nat} {u : Tcu w} {v : Tcu w'} (h : u.status = v.status) :
    u.statusWf = v.statusWf := by
  simp only [Tcu.statusWf, Tcu.statusReserved, Tcu.codeBits, h]

/-- Settles O20: an event leaves `STATUS` as it was or writes one of the seven codes. -/
theorem statusStaysLegal : Obligations.StatusStaysLegal := by
  intro s t hinv hstep
  obtain ⟨-, hwait⟩ | ⟨e, rest, -, hnext⟩ := step_cases s
  · cases hwait.symm.trans hstep
    exact hinv
  · cases hnext.symm.trans hstep
    obtain hkept | ⟨code, hcode⟩ := s.unit.afterEvent_status (c := Config.tcu) e
    · exact (Tcu.statusWf_congr hkept).trans hinv
    · exact Tcu.statusWf_of_status hcode

/-- Settles O24: the code of each command, and the three kinds of transaction that run none. -/
theorem codesOfEachCommand : Obligations.CodesOfEachCommand := by
  refine ⟨fun i s => ⟨_, exec_eq i s, s.unit.afterCommand_status_mem i⟩,
    fun w e s he => ⟨_, command_of_error he s, statusOf_errIllegal.symm⟩,
    fun n d s hn => ⟨_, transact_eq _ s, ?_⟩, fun n s => ⟨_, transact_eq _ s, rfl⟩⟩
  change (s.unit.afterEvent Config.tcu (.wr n d)).status = s.unit.status
  rw [Tcu.afterEvent_wr hn, Tcu.hostWrite_status]

/-! ## A register read is the register's value (R29, R31) -/

theorem zext32_toNat {w : Nat} (hw : w ≤ 32) (x : BitVec w) : (zext32 x).toNat = x.toNat :=
  BitVec.toNat_setWidth_of_le hw

theorem zext32_inj {w : Nat} (hw : w ≤ 32) {x y : BitVec w} : zext32 x = zext32 y ↔ x = y := by
  rw [← BitVec.toNat_inj, zext32_toNat hw, zext32_toNat hw, BitVec.toNat_inj]

section Values

variable {u v : UnitRegs}

theorem Tcu.trl_eq_of_get (h : ∀ i, u.get (.trl i) = v.get (.trl i)) : u.trl = v.trl :=
  Vector.ext fun i hi => (zext32_inj (by decide)).1 (h ⟨i, hi⟩)

/-- The 22 registers are the whole unit. -/
theorem Tcu.eq_of_get (h : ∀ r ∈ Reg.stored, u.get r = v.get r) : u = v := by
  have hreg : ∀ r, u.get r = v.get r := by
    intro r
    obtain rfl | hr := List.mem_cons.1 r.mem_cmd_cons_stored
    · rfl
    · exact h r hr
  have h8 {x y : BitVec 8} := (zext32_inj (by decide) (x := x) (y := y)).1
  have h12 {x y : BitVec 12} := (zext32_inj (by decide) (x := x) (y := y)).1
  have h16 {x y : BitVec 16} := (zext32_inj (by decide) (x := x) (y := y)).1
  have h32 {x y : BitVec 32} := (zext32_inj (by decide) (x := x) (y := y)).1
  exact Tcu.ext (h8 (hreg .status)) (h8 (hreg .crcr)) (h8 (hreg .mac8In)) (h32 (hreg .epochIn)) (h32 (hreg .rootIn))
    (h32 (hreg .tip0In)) (h32 (hreg .tip1In)) (h32 (hreg .tlen)) (h8 (hreg .epochOut)) (h16 (hreg .rootOut))
    (h12 (hreg .tip0Out)) (h12 (hreg .tip1Out)) (Tcu.trl_eq_of_get fun i => hreg (.trl i))

end Values

/-- Settles O9: no register is wider than the datum of an `RD`. -/
theorem registersAreTheWholeUnit : Obligations.RegistersAreTheWholeUnit := by
  refine ⟨fun u => ?_, fun u v => Tcu.eq_of_get, by decide, by decide⟩
  have h8 := @zext32_toNat 8 (by decide)
  have h12 := @zext32_toNat 12 (by decide)
  have h16 := @zext32_toNat 16 (by decide)
  have h32 := @zext32_toNat 32 (by decide)
  exact ⟨h8 _, h8 _, h8 _, h32 _, h32 _, h32 _, h32 _, h32 _, h8 _, h16 _, h12 _, h12 _, fun i => h8 _⟩

/-! ## What a command reads (R57) -/

section ReadSet

variable {u v : UnitRegs}

/-- The five inputs of `ENC`. -/
theorem Tcu.inputs_eq_of_get (h : ∀ r ∈ readSet .enc, u.get r = v.get r) :
    u.epochIn = v.epochIn ∧ u.rootIn = v.rootIn ∧ u.tip0In = v.tip0In ∧ u.tip1In = v.tip1In ∧ u.mac8In = v.mac8In := by
  simp only [readSet, List.forall_mem_cons, Tcu.get] at h
  obtain ⟨hepoch, hroot, htip0, htip1, hmac, -⟩ := h
  have h32 {x y : BitVec 32} := (zext32_inj (by decide) (x := x) (y := y)).1
  exact ⟨h32 hepoch, h32 hroot, h32 htip0, h32 htip1, (zext32_inj (by decide)).1 hmac⟩

/-- What `DEC` checks and unpacks. -/
theorem Tcu.candidate_eq_of_get (h : ∀ r ∈ readSet .dec, u.get r = v.get r) :
    u.tlen = v.tlen ∧ u.trl = v.trl ∧ u.mac8In = v.mac8In := by
  have htlen : u.get .tlen = v.get .tlen := h _ (by decide)
  have hmac : u.get .mac8In = v.get .mac8In := h _ (by decide)
  have htrl (i : Fin 10) : u.get (.trl i) = v.get (.trl i) := h _ (by simp [readSet, trl_mem_trlRegs])
  exact ⟨(zext32_inj (w := 32) (by decide)).1 htlen, Tcu.trl_eq_of_get htrl, (zext32_inj (by decide)).1 hmac⟩

theorem Tcu.commandMayChange_congr {i : Instr} (h : ∀ r ∈ readSet i, u.get r = v.get r) :
    commandMayChange u i = commandMayChange v i := by
  cases i with
  | crcClr | crcUpd => rfl
  | enc =>
    obtain ⟨hepoch, hroot, -⟩ := Tcu.inputs_eq_of_get h
    simp only [commandMayChange, hepoch, hroot]
  | dec =>
    obtain ⟨htlen, htrl, hmac⟩ := Tcu.candidate_eq_of_get h
    simp only [commandMayChange, htlen, htrl, hmac]

/-- A register that `ENC` may change gets a value made of the inputs. -/
theorem Tcu.get_encode_congr (h : ∀ r ∈ readSet .enc, u.get r = v.get r) {r : Reg} (hr : r ∈ commandMayChange u .enc) :
    (u.encode Config.tcu).get r = (v.encode Config.tcu).get r := by
  obtain ⟨hepoch, hroot, htip0, htip1, hmac⟩ := Tcu.inputs_eq_of_get h
  unfold commandMayChange at hr
  cases hrange : rangeOk u.epochIn u.rootIn with
  | true =>
    rw [if_pos hrange, List.mem_append, trlRegs, List.mem_map] at hr
    rw [Tcu.encode_of_rangeOk hrange, Tcu.encode_of_rangeOk (by rwa [← hepoch, ← hroot])]
    obtain ⟨i, -, rfl⟩ | hr := hr
    · simp only [Tcu.get, hepoch, hroot, htip0, htip1, hmac]
    · obtain rfl | rfl : r = .tlen ∨ r = .status := by simpa using hr
      all_goals rfl
  | false =>
    obtain rfl : r = .status := by simpa [hrange] using hr
    rw [Tcu.encode_of_not_rangeOk hrange, Tcu.encode_of_not_rangeOk (by rwa [← hepoch, ← hroot])]
    rfl

/-- A register that `DEC` may change gets a value made of the candidate. -/
theorem Tcu.get_decode_congr (h : ∀ r ∈ readSet .dec, u.get r = v.get r) {r : Reg} (hr : r ∈ commandMayChange u .dec) :
    u.decode.get r = v.decode.get r := by
  obtain ⟨htlen, htrl, hmac⟩ := Tcu.candidate_eq_of_get h
  unfold commandMayChange at hr
  by_cases hcheck : checkTrailer u.tlen u.trl u.mac8In = .ok
  · rw [Tcu.decode_of_ok hcheck, Tcu.decode_of_ok (by rwa [← htlen, ← htrl, ← hmac])]
    obtain rfl | rfl | rfl | rfl | rfl :
        r = .epochOut ∨ r = .rootOut ∨ r = .tip0Out ∨ r = .tip1Out ∨ r = .status := by simpa [hcheck] using hr
    all_goals simp only [Tcu.get, htrl]
  · obtain rfl : r = .status := by simpa [hcheck] using hr
    simp only [Tcu.get, Tcu.decode_status, htlen, htrl, hmac]

theorem Tcu.get_afterCommand_congr {i : Instr} (h : ∀ r ∈ readSet i, u.get r = v.get r) {r : Reg}
    (hr : r ∈ commandMayChange u i) :
    (u.afterCommand Config.tcu i).get r = (v.afterCommand Config.tcu i).get r := by
  cases i with
  | crcClr =>
    obtain rfl | rfl : r = .crcr ∨ r = .status := by simpa [commandMayChange] using hr
    all_goals rfl
  | crcUpd b =>
    have hcrcr : u.crcr = v.crcr := (zext32_inj (by decide)).1 (h .crcr (by simp [readSet]))
    obtain rfl | rfl : r = .crcr ∨ r = .status := by simpa [commandMayChange] using hr
    all_goals simp only [Tcu.get, Tcu.afterCommand, Tcu.crcUpd_eq, hcrcr]
  | enc => exact Tcu.get_encode_congr h hr
  | dec => exact Tcu.get_decode_congr h hr

theorem status_mem_commandMayChange {w : Nat} (u : Tcu w) (i : Instr) : Reg.status ∈ commandMayChange u i := by
  cases i with
  | crcClr | crcUpd => exact List.mem_cons_of_mem _ (List.mem_singleton_self _)
  | enc | dec => unfold commandMayChange; split_ifs <;> simp

theorem Tcu.afterCommand_status_congr {i : Instr} (h : ∀ r ∈ readSet i, u.get r = v.get r) :
    (u.afterCommand Config.tcu i).status = (v.afterCommand Config.tcu i).status :=
  (zext32_inj (by decide)).1 (Tcu.get_afterCommand_congr h (status_mem_commandMayChange u i))

end ReadSet

/-- Settles O25: a register in the frame of both is kept in both, one outside gets the same value in both. -/
theorem commandsDependOnReadSetOnly : Obligations.CommandsDependOnReadSetOnly := by
  intro i s s' hread
  refine ⟨_, _, exec_eq i s, exec_eq i s', Tcu.afterCommand_status_congr hread, fun r => ?_⟩
  by_cases hr : r ∈ commandMayChange s.unit i
  · exact .inr (Tcu.get_afterCommand_congr hread hr)
  · have hr' := hr
    rw [Tcu.commandMayChange_congr hread] at hr'
    exact .inl ⟨Tcu.get_afterCommand_of_not_mem hr, Tcu.get_afterCommand_of_not_mem hr'⟩

end Sys2Proof.Machine
end

section
/-! PROOFS. Sections 2 to 5 of 70_reset_and_hazards.md: the streamed CRC, the registers an event leaves alone and what the
host has written since reset, and the statements O56, O38, O57 and O12 from these. -/

namespace Sys2Proof.Machine

/-! ## The streamed CRC (R73, R117) -/

section Streaming

variable {c : Config}

@[simp] theorem Tcu.encode_crcr (u : Tcu c.wIn) : (u.encode c).crcr = u.crcr := by
  unfold Tcu.encode
  split_ifs <;> rfl

@[simp] theorem Tcu.decode_crcr {w : Nat} (u : Tcu w) : u.decode.crcr = u.crcr := by
  by_cases hcheck : checkTrailer u.tlen u.trl u.mac8In = .ok
  · rw [Tcu.decode_of_ok hcheck]
  · rw [Tcu.decode_of_ne_ok hcheck, Tcu.setCode_crcr]

@[simp] theorem Tcu.hostWrite_crcr {w : Nat} (n : RegNum) (d : Word) (u : Tcu w) :
    (u.hostWrite n d).crcr = u.crcr := by
  have hget : (u.hostWrite n d).get .crcr = u.get .crcr := by
    by_cases hn : n = Reg.crcr.number
    · rw [hn, Tcu.hostWrite_number, Tcu.put_of_not_readWrite (by decide)]
    · exact Tcu.get_hostWrite_of_ne hn
  exact (zext32_inj (by decide)).1 hget

theorem streamedBytes_cons {w : Nat} (e : Event w) (es : List (Event w)) :
    streamedBytes (e :: es) = streamedBytes [e] ++ streamedBytes es :=
  List.filterMap_append (l := [e])

theorem streamedBytes_of_none {w : Nat} {e : Event w} (h : eventCommand e = none) : streamedBytes [e] = [] := by
  simp [streamedBytes, h]

/-- Inside a message, `CRCR` takes in the bytes an event streams, one or none. -/
theorem Tcu.afterEvent_crcr (u : Tcu c.wIn) {e : Event c.wIn} (he : keepsStream e = true) :
    (u.afterEvent c e).crcr = (streamedBytes [e]).foldl crc8Update u.crcr := by
  obtain ⟨i, rfl⟩ | ⟨d, x, rfl, hx⟩ | ⟨n, d, hn, rfl⟩ | ⟨n, rfl⟩ | ⟨draws, rfl⟩ := e.kinds
  · rw [Tcu.afterEvent_command]
    cases i with
    | crcClr => simp [keepsStream] at he
    | crcUpd b => simp [streamedBytes, Tcu.afterCommand, Tcu.crcUpd_eq]
    | enc | dec => simp [streamedBytes, Tcu.afterCommand]
  · rw [Tcu.afterEvent_illegal hx, streamedBytes_of_none (eventCommand_illegal hx)]
    rfl
  · rw [Tcu.afterEvent_wr hn, Tcu.hostWrite_crcr, streamedBytes_of_none (eventCommand_wr hn)]
    rfl
  · rfl
  · cases he

theorem Tcu.afterEvents_crcr (u : Tcu c.wIn) {es : List (Event c.wIn)} (hes : ∀ e ∈ es, keepsStream e = true) :
    (u.afterEvents c es).crcr = (streamedBytes es).foldl crc8Update u.crcr := by
  induction es generalizing u with
  | nil => rfl
  | cons e es ih =>
    obtain ⟨he, hrest⟩ := List.forall_mem_cons.1 hes
    rw [Tcu.afterEvents_cons, ih _ hrest, Tcu.afterEvent_crcr u he, streamedBytes_cons e es, List.foldl_append]

end Streaming

/-- Settles O56: a fold of byte steps over the message goes on with the byte of the event. -/
theorem stepExtendsStreamedCrc : Obligations.StepExtendsStreamedCrc := by
  intro s t e rest m hpending he hcrcr hstep
  cases (step_eq_of_pending hpending).symm.trans hstep
  rw [Tcu.afterEvent_crcr s.unit he, hcrcr, crc8_append_foldl]

/-- Settles O38: the start leaves `0x00`, and every later event extends the message. -/
theorem streamingEqualsFunction : Obligations.StreamingEqualsFunction := by
  intro s start es hstart hes
  refine ⟨_, runEvents_eq _ s, ?_⟩
  have hzero : (s.unit.afterEvent Config.tcu start).crcr = 0x00 := by
    obtain rfl | ⟨draws, rfl⟩ := hstart <;> rfl
  change ((s.unit.afterEvent Config.tcu start).afterEvents Config.tcu es).crcr = crc8 (streamedBytes es)
  rw [Tcu.afterEvents_crcr _ hes, hzero]
  rfl

/-! ## Events that leave a register alone -/

/-- The event is no reset, no `WR` to the register and, unless `ENC` only reads the register, no `ENC`. -/
def Event.Spares {w : Nat} (r : Reg) (e : Event w) : Prop :=
  (∀ draws, e ≠ .reset draws) ∧ (∀ d, e ≠ .wr r.number d) ∧ (eventCommand e = some .enc → r ∈ readSet .enc)

theorem readWrite_of_mem_readSet_enc {r : Reg} (h : r ∈ readSet .enc) : r.access = .readWrite :=
  (by decide : ∀ r ∈ readSet .enc, r.access = .readWrite) r h

theorem commandMayChange_enc_subset {w : Nat} (u : Tcu w) : commandMayChange u .enc ⊆ trlRegs ++ [.tlen, .status] := by
  simp only [commandMayChange]
  split_ifs
  · exact List.Subset.refl _
  · simp

theorem commandMayChange_dec_subset {w : Nat} (u : Tcu w) :
    commandMayChange u .dec ⊆ [.epochOut, .rootOut, .tip0Out, .tip1Out, .status] := by
  simp only [commandMayChange]
  split_ifs
  · exact List.Subset.refl _
  · simp

/-- `ENC` is the only command that may change a register the host may write, and it spares its own inputs. -/
theorem eq_enc_of_mem_commandMayChange {w : Nat} {u : Tcu w} {i : Instr} {r : Reg} (hr : r.access = .readWrite)
    (h : r ∈ commandMayChange u i) : i = .enc ∧ r ∉ readSet .enc := by
  cases i with
  | crcClr | crcUpd =>
    obtain rfl | rfl : r = .crcr ∨ r = .status := by simpa [commandMayChange] using h
    all_goals cases hr
  | enc =>
    have hinputs : ∀ q ∈ trlRegs ++ [.tlen, .status], q ∉ readSet .enc := by decide
    exact ⟨rfl, hinputs r (commandMayChange_enc_subset u h)⟩
  | dec =>
    have houtputs : ∀ q ∈ [Reg.epochOut, .rootOut, .tip0Out, .tip1Out, .status], q.access ≠ .readWrite := by decide
    exact absurd hr (houtputs r (commandMayChange_dec_subset u h))

section Spared

variable {c : Config} {u : Tcu c.wIn} {r : Reg} {e : Event c.wIn} {d : Word}

theorem Event.Spares.not_mem_mayChange (h : e.Spares r) (hr : r.access = .readWrite) : r ∉ mayChange u e := by
  intro hmem
  obtain ⟨hreset, hwr, henc⟩ := h
  obtain ⟨i, rfl⟩ | ⟨d, x, rfl, hx⟩ | ⟨n, d, hn, rfl⟩ | ⟨n, rfl⟩ | ⟨draws, rfl⟩ := e.kinds
  · rw [mayChange_command] at hmem
    obtain ⟨rfl, hread⟩ := eq_enc_of_mem_commandMayChange hr hmem
    exact hread (henc eventCommand_command)
  · rw [mayChange_illegal hx] at hmem
    obtain rfl := List.mem_singleton.1 hmem
    cases hr
  · have hnr : n ≠ r.number := by
      rintro rfl
      exact hwr d rfl
    simp only [mayChange, if_neg hn] at hmem
    cases hq : Reg.ofNumber n with
    | none => simp [hq] at hmem
    | some q =>
      have hqr : r = q := by
        simp only [hq] at hmem
        split_ifs at hmem
        · exact List.mem_singleton.1 hmem
        · cases hmem
      exact hnr (hqr ▸ Reg.number_of_ofNumber hq)
  · cases hmem
  · exact hreset draws rfl

theorem Event.Spares.get_afterEvent (h : e.Spares r) (hr : r.access = .readWrite) :
    (u.afterEvent c e).get r = u.get r :=
  Tcu.get_afterEvent_of_not_mem (h.not_mem_mayChange hr)

theorem Tcu.get_afterEvents_of_spares {es : List (Event c.wIn)} (h : ∀ e ∈ es, e.Spares r)
    (hr : r.access = .readWrite) : (u.afterEvents c es).get r = u.get r := by
  induction es generalizing u with
  | nil => rfl
  | cons e es ih =>
    obtain ⟨he, hrest⟩ := List.forall_mem_cons.1 h
    rw [Tcu.afterEvents_cons, ih hrest, he.get_afterEvent hr]

theorem Tcu.get_afterEvent_wr (hr : r.access = .readWrite) :
    ((u.afterEvent c (.wr r.number d)).get r).toNat = d.toNat % 2 ^ r.width c := by
  rw [Tcu.afterEvent_wr (Reg.number_ne_zero_of_readWrite hr), Tcu.hostWrite_number, Tcu.get_put_same hr]

end Spared

/-- Settles O12: the `WR` stores the low bits, the events between spare the register, and the `RD` returns it. -/
theorem readReturnsLatestWrite : Obligations.ReadReturnsLatestWrite := by
  intro s r d es hr hes
  have hspares : ∀ e ∈ es, e.Spares r := by
    intro e he
    obtain ⟨hreset, hwr, henc⟩ := hes e he
    refine ⟨hreset, hwr, fun hi => ?_⟩
    obtain ⟨htlen, htrl⟩ := henc hi
    cases r with
    | trl i => exact absurd rfl (htrl i)
    | tlen => exact absurd rfl htlen
    | mac8In | epochIn | rootIn | tip0In | tip1In => decide
    | _ => cases hr
  have hrun : ∃ t, runEvents (.wr r.number d :: es) s = .next t ∧
      (t.unit.get r).toNat = d.toNat % 2 ^ r.width Config.tcu := by
    refine ⟨_, runEvents_eq _ s, ?_⟩
    rw [Tcu.afterEvents_cons, Tcu.get_afterEvents_of_spares hspares hr, Tcu.get_afterEvent_wr hr]
  obtain ⟨t, ht, hget⟩ := hrun
  refine ⟨t.note (t.unit.hostRead r.number), t.unit.get r, ?_, ?_, hget⟩
  · rw [runEvents_append, ht]
    rfl
  · rw [State.note_reads, List.getLast?_concat, Tcu.hostRead_number]

/-! ## What the host has written since reset, or loaded since reset or `ENC` (R115) -/

section Latest

variable {w : Nat} {r : Reg} {e : Event w} {es : List (Event w)} {d : Word}

/-- The latest `WR` to an input of `ENC` is the last event, or an earlier one that the last event left alone. -/
theorem latestWrite_concat (hr : r ∈ readSet .enc) (h : latestWrite r (es ++ [e]) = some d) :
    e = .wr r.number d ∨ (latestWrite r es = some d ∧ e.Spares r) := by
  rw [latestWrite, List.foldl_append] at h
  cases e with
  | reset draws => cases h
  | rd n => exact .inr ⟨h, nofun, nofun, nofun⟩
  | wr n d' =>
    change (if n = r.number then some d' else latestWrite r es) = some d at h
    split_ifs at h with hn
    · cases h
      exact .inl (by rw [hn])
    · refine .inr ⟨h, nofun, fun d'' heq => hn ?_, fun _ => hr⟩
      cases heq
      rfl

/-- The latest load of a register is the last event, or an earlier one that the last event left alone. -/
theorem latestLoad_concat (h : latestLoad r (es ++ [e]) = some d) :
    e = .wr r.number d ∨ (latestLoad r es = some d ∧ e.Spares r) := by
  rw [latestLoad, List.foldl_append] at h
  cases e with
  | reset draws => cases h
  | rd n => exact .inr ⟨h, nofun, nofun, nofun⟩
  | wr n d' =>
    change (if eventCommand (.wr n d' : Event w) = some .enc then none
      else if n = r.number then some d' else latestLoad r es) = some d at h
    split_ifs at h with henc hn
    · cases h
      exact .inl (by rw [hn])
    · refine .inr ⟨h, nofun, fun d'' heq => hn ?_, fun hcmd => absurd hcmd henc⟩
      cases heq
      rfl

end Latest

/-- Two units that get one event, but for a reset's draws, agree on a register that it writes, or that it spares and they
agreed on before. -/
theorem Tcu.get_afterEvent_congr {c : Config} {u v : Tcu c.wIn} {e e' : Event c.wIn} {r : Reg} {d : Word} {P : Prop}
    (hr : r.access = .readWrite) (hee' : e' = e ∨ ∃ draws draws', e = .reset draws ∧ e' = .reset draws')
    (h : e = .wr r.number d ∨ (P ∧ e.Spares r)) (huv : P → u.get r = v.get r) :
    (u.afterEvent c e).get r = (v.afterEvent c e').get r := by
  obtain rfl | ⟨hP, hspares⟩ := h
  · obtain rfl | ⟨draws, draws', hreset, -⟩ := hee'
    · exact BitVec.eq_of_toNat_eq ((Tcu.get_afterEvent_wr hr).trans (Tcu.get_afterEvent_wr hr).symm)
    · cases hreset
  · obtain rfl | ⟨draws, draws', hreset, -⟩ := hee'
    · rw [hspares.get_afterEvent hr, hspares.get_afterEvent hr, huv hP]
    · exact absurd hreset (hspares.1 draws)

/-- Settles O57: a register the host has written is the one the event writes, or one the event spares; a reset leaves
nothing written. -/
theorem stepKeepsHostWrittenAgreement : Obligations.StepKeepsHostWrittenAgreement := by
  intro s s' t t' e e' rest rest' es agree hs hs' hee' hagree ht ht'
  cases (step_eq_of_pending hs).symm.trans ht
  cases (step_eq_of_pending hs').symm.trans ht'
  obtain ⟨hwritten, hloaded⟩ := hagree
  constructor
  · intro r hr hsome
    obtain ⟨d, hd⟩ := Option.isSome_iff_exists.1 hsome
    exact Tcu.get_afterEvent_congr (readWrite_of_mem_readSet_enc hr) hee' (latestWrite_concat hr hd)
      fun hearlier => hwritten r hr (Option.isSome_of_eq_some hearlier)
  · intro r hr hsome
    obtain ⟨d, hd⟩ := Option.isSome_iff_exists.1 hsome
    exact Tcu.get_afterEvent_congr hr hee' (latestLoad_concat hd)
      fun hearlier => hloaded r hr (Option.isSome_of_eq_some hearlier)

end Sys2Proof.Machine
end

section
/-! PROOFS. Sections 4 and 6 of 20_memory.md and sections 1 and 5 of 70_reset_and_hazards.md: reads, runs of many steps, the
states after reset, and the statements O11, O14, O15, O16, O17 and O21 from these. -/

namespace Sys2Proof.Machine

/-! ## Reads (R37) -/

theorem transact_rd (n : RegNum) (s : State) : transact (.rd n) s = .next (s.note (s.unit.hostRead n)) := rfl

theorem runEvents_replicate_rd (n : RegNum) (k : Nat) (s : State) :
    runEvents (List.replicate k (.rd n)) s =
      .next { s with reads := s.reads ++ List.replicate k (s.unit.hostRead n) } := by
  induction k generalizing s with
  | zero => simp
  | succ k ih =>
    rw [List.replicate_succ, runEvents_cons, transact_rd, andThen_next, ih]
    simp [State.note, List.replicate_succ]

/-- Settles O11: each read returns what the register holds, and leaves it so for the next. -/
theorem readsAreIdempotent : Obligations.ReadsAreIdempotent :=
  fun s n k => ⟨s.unit.hostRead n, runEvents_replicate_rd n k s, transact_rd n s⟩

/-! ## Runs of many steps (R39, R124) -/

theorem run_succ_of_step {M : Host.Core} {s t : M.State} (h : M.step s = .next t) (k : Nat) :
    M.run (k + 1) s = M.run k t := by
  rw [Host.Core.run, h]

/-- Settles O15: one step takes the first event, and the rest is a shorter run. -/
theorem stepsRunHostEventsInOrder : Obligations.StepsRunHostEventsInOrder := by
  intro s es rest
  induction es generalizing s with
  | nil => rfl
  | cons e es ih =>
    rw [runEvents_cons, transact_eq, andThen_next]
    exact (run_succ_of_step (M := core) (step_eq_of_pending rfl) es.length).trans
      (ih { s with unit := s.unit.afterEvent Config.tcu e, reads := s.reads ++ s.unit.answers e })

/-- The event is an `RD`. -/
def Event.isRead {w : Nat} : Event w → Bool
  | .rd _ => true
  | .wr _ _ => false
  | .reset _ => false

theorem Tcu.length_answers {w : Nat} (e : Event w) (u : Tcu w) : (u.answers e).length = e.isRead.toNat := by
  cases e <;> rfl

theorem Tcu.length_answersAll {c : Config} (es : List (Event c.wIn)) (u : Tcu c.wIn) :
    (Tcu.answersAll c es u).length = es.countP Event.isRead := by
  induction es generalizing u with
  | nil => rfl
  | cons e es ih =>
    rw [Tcu.answersAll_cons, List.length_append, Tcu.length_answers, ih, List.countP_cons, Nat.add_comm]
    cases e <;> rfl

/-- Settles O14: the run is the list of pending events in order, none of which stops, and each `RD` answers one value. -/
theorem everyRunEnds : Obligations.EveryRunEnds := by
  intro s
  have hrun : Host.Core.run core s.pending.length s = runEvents s.pending { s with pending := [] } := by
    simpa using stepsRunHostEventsInOrder s s.pending []
  refine ⟨_, Tcu.answersAll Config.tcu s.pending s.unit, hrun.trans (runEvents_eq _ _), rfl, rfl, ?_⟩
  rw [Tcu.length_answersAll]
  refine List.countP_congr fun e _ => ?_
  cases e <;> rfl

/-! ## Reset (R26, R113) -/

/-- Settles O16: the draws are the registers of the unit that reset does not fix. -/
theorem resetLeavesDrawsOpen : Obligations.ResetLeavesDrawsOpen := by
  refine ⟨fun s draws rest hreset => ?_, fun draws => ⟨rfl, rfl, rfl⟩, fun u => ?_, Draws.zero, rfl⟩
  · rw [step_of_pending hreset]
    rfl
  · exact ⟨{ u with }, rfl⟩

/-- Settles O17: `TLEN` and `CRCR` are 0 whatever the draws, and an illegal word needs neither. -/
theorem straightAfterReset : Obligations.StraightAfterReset := by
  intro draws
  refine ⟨?dec, fun b => exec_crcUpd_of_eq rfl, fun w e he => command_of_error he _, _, rfl, rfl⟩
  have hlen : (Tcu.resetWith draws).tlen.toNat ≠ 10 := by
    rw [Tcu.resetWith_tlen]
    decide
  exact (exec_dec_of_fails (checkTrailer_of_length_ne hlen) (by decide)).trans (by rw [statusOf_errLength]; rfl)

/-- Settles O21: a reset state reports `OK`. -/
theorem resetStatusIsLegal : Obligations.ResetStatusIsLegal := by
  have hlegal (draws) : (State.resetWith draws).Inv := Tcu.statusWf_of_status statusOf_ok.symm
  exact ⟨hlegal, hlegal Draws.zero⟩

end Sys2Proof.Machine
end

section
/-! PROOFS. Sections 1 and 3 of 40_crc.md: the other forms of the CRC, its laws, what errors it sees, and the statements
O28 to O35 from these. -/

namespace Sys2Proof.Machine

/-! ## One iteration is one-to-one -/

theorem eq_zero_of_crcShift {r : Byte} (h : crcShift r = 0x00) : r = 0x00 := by
  have key : ∀ k : Fin 256, crcShift (BitVec.ofFin k) = 0x00 → BitVec.ofFin k = (0x00 : Byte) := by decide +kernel
  exact key r.toFin h

theorem crcShift_injective : Function.Injective crcShift := by
  intro r s h
  refine BitVec.xor_eq_zero_iff.1 (eq_zero_of_crcShift ?_)
  rw [crcShift_xor, h, BitVec.xor_self]
  rfl

theorem crcShifts_injective (n : Nat) : Function.Injective (crcShifts n) := by
  induction n with
  | zero => exact Function.injective_id
  | succ n ih => exact ih.comp crcShift_injective

theorem crcShifts_eq_zero_iff {n : Nat} {r : Byte} : crcShifts n r = 0x00 ↔ r = 0x00 :=
  (crcShifts_injective n).eq_iff' (crcShifts_zero n)

theorem crc8Update_injective_byte (r : Byte) : Function.Injective (crc8Update r) :=
  (crcShifts_injective 8).comp fun _ _ => BitVec.xor_right_inj r |>.1

theorem crc8Update_injective_register (b : Byte) : Function.Injective fun r => crc8Update r b :=
  (crcShifts_injective 8).comp fun _ _ => BitVec.xor_left_inj b |>.1

theorem crc8Update_eq_zero_iff {r b : Byte} : crc8Update r b = 0x00 ↔ r = b :=
  crcShifts_eq_zero_iff.trans BitVec.xor_eq_zero_iff

/-- Settles O34: a byte step is one-to-one in each argument, and there are finitely many bytes. -/
theorem crcUpdateIsBijective : Obligations.CrcUpdateIsBijective :=
  ⟨fun r => Finite.injective_iff_bijective.1 (crc8Update_injective_byte r),
    fun b => Finite.injective_iff_bijective.1 (crc8Update_injective_register b)⟩

/-! ## Linearity, and leading zeros (laws (a), (c), (d)) -/

theorem crc8Update_xor (r s a b : Byte) :
    crc8Update (r ^^^ s) (a ^^^ b) = crc8Update r a ^^^ crc8Update s b := by
  have hswap : r ^^^ s ^^^ (a ^^^ b) = (r ^^^ a) ^^^ (s ^^^ b) := by ac_rfl
  rw [crc8Update, hswap, crcShifts_xor, crc8Update, crc8Update]

theorem foldl_crc8Update_xor {A B : List Byte} (h : A.length = B.length) (r s : Byte) :
    (List.zipWith (· ^^^ ·) A B).foldl crc8Update (r ^^^ s) = A.foldl crc8Update r ^^^ B.foldl crc8Update s := by
  induction A generalizing B r s with
  | nil =>
    obtain rfl := List.length_eq_zero_iff.1 h.symm
    rfl
  | cons a A ih =>
    obtain ⟨b, B, rfl⟩ := List.exists_cons_of_length_eq_add_one h.symm
    rw [List.zipWith_cons_cons, List.foldl_cons, crc8Update_xor, ih (Nat.succ.inj h), List.foldl_cons, List.foldl_cons]

theorem crc8_xor {A B : List Byte} (h : A.length = B.length) :
    crc8 (List.zipWith (· ^^^ ·) A B) = crc8 A ^^^ crc8 B :=
  foldl_crc8Update_xor h 0x00 0x00

/-- Settles O31: each iteration is linear, so a byte step and a fold of them are. -/
theorem crcIsLinear : Obligations.CrcIsLinear :=
  ⟨crc8Update_xor, fun _ _ => crc8_xor⟩

/-- Settles O33: a byte step is eight iterations of the exclusive-or of its arguments. -/
theorem crcDependsOnXorOnly : Obligations.CrcDependsOnXorOnly :=
  ⟨fun _ _ _ _ h => congrArg (crcShifts 8) h, crc8Update_self, fun _ => rfl⟩

/-! ## The appended CRC (law (b)) -/

/-- Ten bytes are their first nine and the last. -/
theorem crc8_of_length_ten {t : List Byte} (h : t.length = 10) :
    crc8 t = crc8Update (crc8 (t.take 9)) (t.getD 9 0x00) := by
  have hsplit : t = t.take 9 ++ [t.getD 9 0x00] := by
    rw [List.getD_eq_getElem _ _ (by omega), List.take_append_getElem, List.take_of_length_le (by omega)]
  rw [← crc8_concat, ← hsplit]

theorem crc8_eq_zero_iff_of_length_ten {t : List Byte} (h : t.length = 10) :
    crc8 t = 0x00 ↔ crc8 (t.take 9) = t.getD 9 0x00 := by
  rw [crc8_of_length_ten h, crc8Update_eq_zero_iff]

theorem validTrailer_iff {t : List Byte} :
    validTrailer t = true ↔ t.length = 10 ∧ t.getD 0 0x00 = 0xCF ∧ crc8 (t.take 9) = t.getD 9 0x00 := by
  simp only [validTrailer, Bool.and_eq_true, beq_iff_eq, and_assoc]

theorem validTrailer_iff_crc8 {t : List Byte} :
    validTrailer t = true ↔ t.length = 10 ∧ t.getD 0 0x00 = 0xCF ∧ crc8 t = 0x00 := by
  rw [validTrailer_iff]
  exact and_congr_right fun h => by rw [crc8_eq_zero_iff_of_length_ten h]

/-- Settles O32: a byte step with the register itself gives zero, and with no other byte. -/
theorem appendedCrcGivesZero : Obligations.AppendedCrcGivesZero := by
  refine ⟨fun A => ?_, fun t hlength hmagic => ?_⟩
  · rw [crc8_concat, crc8Update_self]
  · rw [validTrailer_iff_crc8]
    exact ⟨fun ⟨_, _, hcrc⟩ => hcrc, fun hcrc => ⟨hlength, hmagic, hcrc⟩⟩

/-! ## The other forms (R67) -/

theorem crcTable_eq_map : crcTable = (List.finRange 256).map fun k => crcShifts 8 (BitVec.ofFin k) := by
  decide +kernel

theorem crcTable_getD (v : Byte) : crcTable.getD v.toNat 0x00 = crcShifts 8 v := by
  rw [crcTable_eq_map, List.getD_eq_getElem _ _ (by simpa using v.isLt), List.getElem_map, List.getElem_finRange]
  rfl

/-- Settles O28: the table holds eight iterations of each byte. -/
theorem crcTableForm : Obligations.CrcTableForm := by
  refine ⟨?_, fun r b => (crcTable_getD (r ^^^ b)).symm⟩
  rw [crcTable_eq_map, List.length_map, List.length_finRange]

@[simp] theorem crcBit_false (r : Byte) : crcBit r false = crcShift r := by
  simp [crcBit, crcShift]

/-- The feedback register takes in a message bit as an exclusive-or. -/
theorem crcBit_eq_xor (r : Byte) (bit : Bool) : crcBit r bit = crcShift r ^^^ crcBit 0x00 bit := by
  cases bit with
  | false =>
    rw [crcBit_false, crcBit_false, crcShift_zero]
    exact BitVec.xor_zero.symm
  | true =>
    have hbit : crcBit 0x00 true = Config.poly := by decide
    rw [hbit]
    unfold crcBit crcShift
    cases r.msb <;> simp

theorem foldl_crcBit_xor (bits : List Bool) (r s : Byte) :
    bits.foldl crcBit (r ^^^ s) = crcShifts bits.length r ^^^ bits.foldl crcBit s := by
  induction bits generalizing r s with
  | nil => rfl
  | cons bit bits ih =>
    have hbit : crcBit (r ^^^ s) bit = crcShift r ^^^ crcBit s bit := by
      rw [crcBit_eq_xor, crcShift_xor, crcBit_eq_xor s, BitVec.xor_assoc]
    rw [List.foldl_cons, hbit, ih]
    rfl

/-- A byte step is its eight bits, fed one at a time. -/
theorem foldl_crcBit_byteBits (r b : Byte) : (byteBits b).foldl crcBit r = crc8Update r b := by
  have key : ∀ k : Fin 256, (byteBits (BitVec.ofFin k)).foldl crcBit 0x00 = crcShifts 8 (BitVec.ofFin k) := by
    decide +kernel
  calc (byteBits b).foldl crcBit r
    _ = crcShifts 8 r ^^^ (byteBits b).foldl crcBit 0x00 := by
      rw [← BitVec.xor_zero (x := r), foldl_crcBit_xor, BitVec.xor_zero]
      rfl
    _ = crcShifts 8 (r ^^^ b) := by rw [show (byteBits b).foldl crcBit 0x00 = _ from key b.toFin, crcShifts_xor]

theorem foldl_crcBit_bytes (bytes : List Byte) (r : Byte) :
    (bytes.flatMap byteBits).foldl crcBit r = bytes.foldl crc8Update r := by
  rw [List.foldl_flatMap]
  simp only [foldl_crcBit_byteBits]

/-- Settles O29: each byte step is the eight bits of its byte. -/
theorem crcBitSerialForm : Obligations.CrcBitSerialForm :=
  fun bytes => (foldl_crcBit_bytes bytes 0x00).symm

section Remainder

open Polynomial

theorem polyG_monic : polyG.Monic := by
  unfold polyG
  monicity!

theorem polyG_natDegree : polyG.natDegree = 8 := by
  unfold polyG
  compute_degree!

theorem degree_polyFrom_byte_lt (r : Byte) : (polyFrom 0 (byteBits r)).degree < polyG.degree := by
  have hle : (polyFrom 0 (byteBits r)).natDegree ≤ 7 := by
    simp only [polyFrom, byteBits, List.foldl_cons, List.foldl_nil, zero_mul, zero_add]
    compute_degree
  refine degree_lt_degree ?_
  rw [polyG_natDegree]
  omega

/-- Settles O30: the CRC differs from M(x) x^8 by a multiple of G(x), and its degree is below that of G(x). -/
theorem crcIsPolynomialRemainder : Obligations.CrcIsPolynomialRemainder := by
  intro bytes poly G
  have hdvd : polyG ∣ polyFrom 0 (byteBits (crc8 bytes)) - polyFrom 0 (bytes.flatMap byteBits) * X ^ 8 :=
    polyG_dvd_bytes bytes 0x00 0 (by simp [polyFrom, byteBits])
  have hself : polyFrom 0 (byteBits (crc8 bytes)) %ₘ polyG = polyFrom 0 (byteBits (crc8 bytes)) :=
    (modByMonic_eq_self_iff polyG_monic).2 (degree_polyFrom_byte_lt _)
  exact hself.symm.trans (modByMonic_eq_of_dvd_sub polyG_monic hdvd)

end Remainder

/-! ## Errors of ten bytes (law (f)) -/

/-- The ten bytes of an 80-bit pattern, the most significant first. -/
def patternBytes (e : BitVec 80) : List Byte := (List.range 10).map fun i => e.extractLsb' (72 - 8 * i) 8

/-- The bits of an 80-bit pattern, the most significant first. -/
def patternBits (e : BitVec 80) : List Bool := (List.range 80).map fun i => e.getLsbD (79 - i)

theorem length_patternBytes (e : BitVec 80) : (patternBytes e).length = 10 := rfl

theorem flatMap_byteBits_patternBytes (e : BitVec 80) : (patternBytes e).flatMap byteBits = patternBits e := by
  simp [patternBytes, patternBits, byteBits, List.range_succ]

theorem crc8_patternBytes (e : BitVec 80) : crc8 (patternBytes e) = (patternBits e).foldl crcBit 0x00 := by
  rw [← flatMap_byteBits_patternBytes, foldl_crcBit_bytes]
  rfl

/-- The 79 bits below the top one, the most significant first. -/
def lowPatternBits (e : BitVec 80) : List Bool := (List.range 79).map fun i => e.getLsbD (78 - i)

theorem patternBits_eq_cons (e : BitVec 80) : patternBits e = e.getLsbD 79 :: lowPatternBits e := by
  rw [patternBits, List.range_succ_eq_map, List.map_cons, List.map_map, lowPatternBits]
  refine congrArg _ (List.map_congr_left fun i _ => ?_)
  rw [Function.comp_apply, Nat.succ_eq_add_one, Nat.sub_add_eq, Nat.sub_right_comm]

theorem patternBits_shiftLeft_one (e : BitVec 80) : patternBits (e <<< 1) = lowPatternBits e ++ [false] := by
  rw [patternBits, List.range_succ, List.map_append, lowPatternBits]
  congr 1
  · refine List.map_congr_left fun i hi => ?_
    have hi : i < 79 := List.mem_range.1 hi
    rw [BitVec.getLsbD_shiftLeft]
    have hlow : ¬79 - i < 1 := by omega
    have hindex : 79 - i - 1 = 78 - i := by omega
    have hlt : 79 - i < 80 := by omega
    simp [hlow, hindex, hlt]
  · simp

/-- An error moved up by one bit is multiplied by x. -/
theorem crc8_patternBytes_shiftLeft_one {e : BitVec 80} (h : e.getLsbD 79 = false) :
    crc8 (patternBytes (e <<< 1)) = crcShift (crc8 (patternBytes e)) := by
  rw [crc8_patternBytes, crc8_patternBytes, patternBits_shiftLeft_one, patternBits_eq_cons, h, List.foldl_append,
    List.foldl_cons, List.foldl_cons, List.foldl_nil, crcBit_false, crcBit_false, crcShift_zero]

theorem crc8_patternBytes_shiftLeft {e : BitVec 80} {k : Nat} (h : e.toNat < 2 ^ (80 - k)) :
    crc8 (patternBytes (e <<< k)) = crcShifts k (crc8 (patternBytes e)) := by
  induction k with
  | zero => rw [BitVec.shiftLeft_zero]; rfl
  | succ k ih =>
    have htop : (e <<< k).getLsbD 79 = false := by
      rw [BitVec.getLsbD_shiftLeft, BitVec.getLsbD, Nat.testBit_lt_two_pow]
      · simp
      · refine lt_of_lt_of_le h (Nat.pow_le_pow_right (by decide) ?_)
        omega
    have hk : e.toNat < 2 ^ (80 - k) := lt_of_lt_of_le h (Nat.pow_le_pow_right (by decide) (by omega))
    rw [BitVec.shiftLeft_add, crc8_patternBytes_shiftLeft_one htop, ih hk, crcShifts_add]
    rfl

/-- A pattern of one byte: nine zeros before it, which the CRC does not see. -/
theorem crc8_patternBytes_byte (p : Byte) : crc8 (patternBytes (p.setWidth 80)) = crcShifts 8 p := by
  have htoNat : (p.setWidth 80).toNat = p.toNat := BitVec.toNat_setWidth_of_le (by decide)
  have hzero (start : Nat) (h : 8 ≤ start) : (p.setWidth 80).extractLsb' start 8 = 0x00 := by
    apply BitVec.eq_of_toNat_eq
    have hlt : p.toNat < 2 ^ start := p.isLt.trans_le (Nat.pow_le_pow_right (by decide) h)
    rw [BitVec.extractLsb'_toNat, htoNat, Nat.shiftRight_eq_div_pow, Nat.div_eq_of_lt hlt]
    rfl
  have hlast : (p.setWidth 80).extractLsb' 0 8 = p := by
    apply BitVec.eq_of_toNat_eq
    rw [BitVec.extractLsb'_toNat, htoNat, Nat.shiftRight_zero, Nat.mod_eq_of_lt p.isLt]
  have hbytes : patternBytes (p.setWidth 80) = List.replicate 9 0x00 ++ [p] := by
    simp [patternBytes, List.range_succ, hzero, hlast, List.replicate]
  have hzeros : crc8 (List.replicate 9 0x00) = 0x00 := by decide +kernel
  rw [hbytes, crc8_concat, hzeros, crc8Update]
  exact congrArg (crcShifts 8) BitVec.zero_xor

/-- An error confined to eight consecutive bit positions, as a multiple of its lowest bit. -/
theorem crc8_patternBytes_burst (p : Byte) {k : Nat} (hk : k ≤ 72) :
    crc8 (patternBytes (p.setWidth 80 <<< k)) = crcShifts (8 + k) p := by
  rw [crc8_patternBytes_shiftLeft, crc8_patternBytes_byte, crcShifts_add]
  rw [BitVec.toNat_setWidth_of_le (by decide)]
  exact lt_of_lt_of_le p.isLt (Nat.pow_le_pow_right (by decide) (by omega))

theorem crc8_patternBytes_bit {i : Nat} (hi : i < 80) :
    crc8 (patternBytes (1#80 <<< i)) = crcShifts (8 + i) 0x01 := by
  have hone : crc8 (patternBytes 1#80) = crcShifts 8 0x01 := crc8_patternBytes_byte 0x01
  rw [crc8_patternBytes_shiftLeft, hone, crcShifts_add]
  exact Nat.one_lt_two_pow (by omega)

theorem crc8_patternBytes_xor (a b : BitVec 80) :
    crc8 (patternBytes (a ^^^ b)) = crc8 (patternBytes a) ^^^ crc8 (patternBytes b) := by
  have hbytes : patternBytes (a ^^^ b) = List.zipWith (· ^^^ ·) (patternBytes a) (patternBytes b) := by
    simp only [patternBytes, List.zipWith_map, List.zipWith_self, BitVec.extractLsb'_xor]
  rw [hbytes, crc8_xor ((length_patternBytes a).trans (length_patternBytes b).symm)]

/-- The powers of x below the 80th differ modulo G(x): the order of x is above 79. -/
theorem crcShifts_one_ne_of_lt {i j : Nat} (hij : i < j) (hj : j < 80) : crcShifts i 0x01 ≠ crcShifts j 0x01 := by
  have horder : ∀ d : Fin 80, d ≠ 0 → crcShifts d.val 0x01 ≠ 0x01 := by decide +kernel
  have hd : (⟨j - i, by omega⟩ : Fin 80) ≠ 0 := by
    rw [Ne, Fin.ext_iff]
    exact Nat.sub_ne_zero_of_lt hij
  intro h
  have hsplit : crcShifts j 0x01 = crcShifts i (crcShifts (j - i) 0x01) := by
    rw [← crcShifts_add, Nat.sub_add_cancel hij.le]
  rw [hsplit] at h
  exact horder _ hd (crcShifts_injective i h).symm

theorem crc8_patternBytes_two_bits_ne_zero {i j : Nat} (hi : i < 80) (hj : j < 80) (hij : i ≠ j) :
    crc8 (patternBytes (1#80 <<< i ^^^ 1#80 <<< j)) ≠ 0x00 := by
  rw [crc8_patternBytes_xor, crc8_patternBytes_bit hi, crc8_patternBytes_bit hj, Nat.add_comm 8 i, Nat.add_comm 8 j,
    crcShifts_add, crcShifts_add]
  intro h
  have hpowers : crcShifts i 0x01 = crcShifts j 0x01 := crcShifts_injective 8 (BitVec.xor_eq_zero_iff.1 h)
  obtain hlt | hgt := Nat.lt_or_gt_of_ne hij
  · exact crcShifts_one_ne_of_lt hlt hj hpowers
  · exact crcShifts_one_ne_of_lt hgt hi hpowers.symm

/-- Settles O35: by linearity the CRC of the changed bytes is that of the error, which is a power of x for one bit and a
multiple of one for a burst. -/
theorem crcErrorDetection : Obligations.CrcErrorDetection := by
  unfold Obligations.CrcErrorDetection
  intro bytesOf flip t hlength hcrc
  have hflip (e : BitVec 80) : crc8 (flip t e) = crc8 (patternBytes e) := by
    have hlen : t.length = (patternBytes e).length := hlength
    exact (crc8_xor hlen).trans (by rw [hcrc]; exact BitVec.zero_xor)
  refine ⟨fun e => ?_, fun p k hp hk => ?_, fun i j hij => ?_, ?_⟩
  · rw [hflip, ← multipleOfG_iff_crc8]
    rfl
  · rw [hflip, crc8_patternBytes_burst p hk, Ne, crcShifts_eq_zero_iff]
    exact hp
  · rw [hflip]
    exact crc8_patternBytes_two_bits_ne_zero i.isLt j.isLt (Fin.val_ne_of_ne hij)
  · rw [hflip]
    decide +kernel

end Sys2Proof.Machine
end

section
/-! PROOFS. Section 3 of 41_pack.md, section 7 of 20_memory.md and section 1 of 30_encoding.md: the packed tips and the
bytes of a made trailer as numbers, and the statements O40 to O44 from these. -/

namespace Sys2Proof.Machine

/-! ## The packed tips (R50, R51, R81) -/

theorem packTips_toNat {w : Nat} (a b : BitVec w) :
    (packTips a b).toNat = a.toNat % 4096 * 4096 + b.toNat % 4096 := by
  have hlow (x : BitVec w) : (x.extractLsb' 0 12).toNat = x.toNat % 4096 := BitVec.extractLsb'_toNat 0 12 x
  rw [packTips_eq_append, BitVec.toNat_append, ← Nat.shiftLeft_add_eq_or_of_lt (BitVec.isLt _), hlow, hlow,
    Nat.shiftLeft_eq]

theorem unpackTips_toNat (p : BitVec 24) :
    (unpackTips p).1.toNat = p.toNat / 4096 ∧ (unpackTips p).2.toNat = p.toNat % 4096 := by
  have hp := p.isLt
  have hhigh : (p.extractLsb' 12 12).toNat = p.toNat >>> 12 % 4096 := BitVec.extractLsb'_toNat 12 12 p
  have hlow : (p.extractLsb' 0 12).toNat = p.toNat >>> 0 % 4096 := BitVec.extractLsb'_toNat 0 12 p
  rw [unpackTips, hhigh, hlow, Nat.shiftRight_eq_div_pow, Nat.shiftRight_zero]
  omega

theorem unpackTips_packTips (a b : BitVec 12) : unpackTips (packTips a b) = (a, b) := by
  have ha := a.isLt
  have hb := b.isLt
  obtain ⟨hfst, hsnd⟩ := unpackTips_toNat (packTips a b)
  rw [packTips_toNat] at hfst hsnd
  refine Prod.ext (BitVec.eq_of_toNat_eq ?_) (BitVec.eq_of_toNat_eq ?_)
  · change (unpackTips (packTips a b)).1.toNat = a.toNat
    omega
  · change (unpackTips (packTips a b)).2.toNat = b.toNat
    omega

theorem packTips_unpackTips (p : BitVec 24) : packTips (unpackTips p).1 (unpackTips p).2 = p := by
  have hp := p.isLt
  obtain ⟨hfst, hsnd⟩ := unpackTips_toNat p
  apply BitVec.eq_of_toNat_eq
  rw [packTips_toNat]
  omega

/-- Settles O42: two 12-bit halves side by side, as a number. -/
theorem tipsPackLosslessly : Obligations.TipsPackLosslessly :=
  ⟨fun _ => packTips_toNat, unpackTips_packTips, packTips_unpackTips⟩

/-! ## The trailer as a function of the numbers -/

/-- A field of a value of any width is a field of its number. -/
theorem extractLsb'_congr {w w' : Nat} {x : BitVec w} {y : BitVec w'} (h : x.toNat = y.toNat) (start len : Nat) :
    x.extractLsb' start len = y.extractLsb' start len := by
  apply BitVec.eq_of_toNat_eq
  rw [BitVec.extractLsb'_toNat, BitVec.extractLsb'_toNat, h]

/-- Of the configuration the trailer depends on `RSVD8` only, of the tips on their low 12 bits only. -/
theorem packTrailer_congr {w w' : Nat} {c c' : Config} {epoch root tip0 tip1 : BitVec w}
    {epoch' root' tip0' tip1' : BitVec w'} (m : Byte) (hrsvd : c.rsvd8 = c'.rsvd8)
    (hepoch : epoch.toNat = epoch'.toNat) (hroot : root.toNat = root'.toNat)
    (htip0 : tip0.toNat % 4096 = tip0'.toNat % 4096) (htip1 : tip1.toNat % 4096 = tip1'.toNat % 4096) :
    packTrailer c epoch root tip0 tip1 m = packTrailer c' epoch' root' tip0' tip1' m := by
  have htips : packTips tip0 tip1 = packTips tip0' tip1' := by
    apply BitVec.eq_of_toNat_eq
    rw [packTips_toNat, packTips_toNat, htip0, htip1]
  simp only [packTrailer, packBody, hrsvd, htips, extractLsb'_congr hepoch, extractLsb'_congr hroot]

/-- Settles O41: the range check does not see the tips, the trailer only their low 12 bits. -/
theorem encMasksTips : Obligations.EncMasksTips := by
  intro s a b a' b' ha hb
  refine ⟨_, _, exec_enc _, exec_enc _, ?_⟩
  simp only [State.mapUnit_unit, Tcu.encode_status]
  cases hrange : rangeOk s.unit.epochIn s.unit.rootIn with
  | true =>
    rw [Tcu.encode_of_rangeOk (u := { s.unit with tip0In := a, tip1In := b }) hrange,
      Tcu.encode_of_rangeOk (u := { s.unit with tip0In := a', tip1In := b' }) hrange]
    exact ⟨trivial, packTrailer_congr _ rfl rfl rfl ha hb, rfl, fun _ _ => statusOf_ok⟩
  | false =>
    rw [Tcu.encode_of_not_rangeOk (u := { s.unit with tip0In := a, tip1In := b }) hrange,
      Tcu.encode_of_not_rangeOk (u := { s.unit with tip0In := a', tip1In := b' }) hrange]
    refine ⟨trivial, rfl, rfl, fun hepoch hroot => ?_⟩
    rw [rangeOk_iff.2 ⟨hepoch, hroot⟩] at hrange
    cases hrange

/-! ## Valid and authentic buffers (R55) -/

theorem toList_getD (t : Trailer) {i : Nat} (hi : i < 10) : t.toList.getD i 0x00 = t[i] := by
  rw [List.getD_eq_getElem _ _ (by rwa [Vector.length_toList]), Vector.getElem_toList]

theorem crcBody_push (body : Vector Byte 9) (b : Byte) : crcBody (body.push b) = body.toList := by
  rw [crcBody, Vector.toList_push, List.take_left']
  exact Vector.length_toList

theorem validTrailer_toList_iff {t : Trailer} :
    validTrailer t.toList = true ↔ t[0] = 0xCF ∧ crc8 (crcBody t) = t[9] := by
  rw [validTrailer_iff, toList_getD t (by decide), toList_getD t (by decide)]
  exact and_iff_right Vector.length_toList

theorem authenticFor_toList_iff {t : Trailer} {m : Byte} :
    authenticFor m t.toList = true ↔ t[0] = 0xCF ∧ crc8 (crcBody t) = t[9] ∧ t[7] = m := by
  rw [authenticFor, Bool.and_eq_true, validTrailer_toList_iff, toList_getD t (by decide), beq_iff_eq, and_assoc]

section Made

variable {w : Nat} (c : Config) (epoch root tip0 tip1 : BitVec w) (m : Byte)

theorem crc8_crcBody_packTrailer :
    crc8 (crcBody (packTrailer c epoch root tip0 tip1 m)) = (packTrailer c epoch root tip0 tip1 m)[9] := by
  rw [packTrailer, crcBody_push, Vector.getElem_push_eq]

theorem validTrailer_packTrailer : validTrailer (packTrailer c epoch root tip0 tip1 m).toList = true := by
  rw [validTrailer_toList_iff]
  exact ⟨rfl, crc8_crcBody_packTrailer ..⟩

theorem authenticFor_packTrailer : authenticFor m (packTrailer c epoch root tip0 tip1 m).toList = true := by
  rw [authenticFor_toList_iff]
  exact ⟨rfl, crc8_crcBody_packTrailer .., rfl⟩

theorem packTrailer_getD_eight : (packTrailer c epoch root tip0 tip1 m).toList.getD 8 0x00 = c.rsvd8 := by
  rw [toList_getD _ (by decide)]
  rfl

end Made

/-- Settles O40: in range, `ENC` leaves the made trailer, whatever the configuration. -/
theorem encMakesValidTrailers : Obligations.EncMakesValidTrailers := by
  intro c u hepoch hroot
  rw [Tcu.encode_of_rangeOk (rangeOk_iff.2 ⟨hepoch, hroot⟩)]
  exact ⟨validTrailer_packTrailer .., authenticFor_packTrailer .., rfl, Vector.length_toList,
    packTrailer_getD_eight ..⟩

/-! ## The bytes of a made trailer as numbers -/

theorem extractLsb'_byte_toNat {w : Nat} (x : BitVec w) (start : Nat) :
    (x.extractLsb' start 8).toNat = x.toNat / 2 ^ start % 256 := by
  rw [BitVec.extractLsb'_toNat, Nat.shiftRight_eq_div_pow]

section Numbers

variable {w : Nat} {c : Config} {epoch root tip0 tip1 : BitVec w} {m : Byte}

theorem packTrailer_epoch_toNat (h : epoch.toNat < 256) :
    (packTrailer c epoch root tip0 tip1 m)[1].toNat = epoch.toNat := by
  change (epoch.extractLsb' 0 8).toNat = epoch.toNat
  rw [extractLsb'_byte_toNat, Nat.pow_zero, Nat.div_one, Nat.mod_eq_of_lt h]

theorem packTrailer_root_toNat (h : root.toNat < 65536) :
    (packTrailer c epoch root tip0 tip1 m)[2].toNat * 256 + (packTrailer c epoch root tip0 tip1 m)[3].toNat =
      root.toNat := by
  change (root.extractLsb' 8 8).toNat * 256 + (root.extractLsb' 0 8).toNat = root.toNat
  rw [extractLsb'_byte_toNat, extractLsb'_byte_toNat]
  omega

theorem packTrailer_tips_toNat :
    ((packTrailer c epoch root tip0 tip1 m)[4].toNat * 256 + (packTrailer c epoch root tip0 tip1 m)[5].toNat) * 256 +
      (packTrailer c epoch root tip0 tip1 m)[6].toNat = tip0.toNat % 4096 * 4096 + tip1.toNat % 4096 := by
  have hpacked := (packTips tip0 tip1).isLt
  change (((packTips tip0 tip1).extractLsb' 16 8).toNat * 256 + ((packTips tip0 tip1).extractLsb' 8 8).toNat) * 256 +
    ((packTips tip0 tip1).extractLsb' 0 8).toNat = _
  rw [extractLsb'_byte_toNat, extractLsb'_byte_toNat, extractLsb'_byte_toNat, ← packTips_toNat]
  omega

end Numbers

theorem trailerValue_toNat (t : Trailer) :
    (trailerValue t).toNat =
      ((((((((t[0].toNat * 256 + t[1].toNat) * 256 + t[2].toNat) * 256 + t[3].toNat) * 256 + t[4].toNat) * 256 +
        t[5].toNat) * 256 + t[6].toNat) * 256 + t[7].toNat) * 256 + t[8].toNat) * 256 + t[9].toNat := by
  simp only [trailerValue, append_byte_toNat]

/-- Settles O44: the bytes of the trailer are the digits of `T` to the base 256. -/
theorem trailerAsOneValue : Obligations.TrailerAsOneValue := by
  intro c w epoch root tip0 tip1 mac8 hrange t T
  obtain ⟨hepoch, hroot⟩ := rangeOk_iff.1 hrange
  have h0 : t[0].toNat = 0xCF := rfl
  have h1 : t[1].toNat = epoch.toNat := packTrailer_epoch_toNat hepoch
  have h23 : t[2].toNat * 256 + t[3].toNat = root.toNat := packTrailer_root_toNat hroot
  have h456 : (t[4].toNat * 256 + t[5].toNat) * 256 + t[6].toNat = tip0.toNat % 4096 * 4096 + tip1.toNat % 4096 :=
    packTrailer_tips_toNat
  have h7 : t[7].toNat = mac8.toNat := rfl
  have h8 : t[8].toNat = c.rsvd8.toNat := rfl
  have h9 : t[9].toNat = (crc8 (crcBody t)).toNat := congrArg BitVec.toNat (crc8_crcBody_packTrailer ..).symm
  have hT : T = _ := trailerValue_toNat t
  have hmac := mac8.isLt
  have hrsvd := c.rsvd8.isLt
  have hcrc := (crc8 (crcBody t)).isLt
  omega

/-! ## Big-endian accesses (R7, R44) -/

theorem unpackTrailer_eq_memRead (t : Trailer) :
    (unpackTrailer t).epoch.toNat = memRead t 1 1 ∧ (unpackTrailer t).root.toNat = memRead t 2 2 ∧
    (unpackTrailer t).tip0.toNat = memRead t 4 3 / 4096 ∧ (unpackTrailer t).tip1.toNat = memRead t 4 3 % 4096 := by
  have h5 := t[5].isLt
  have h6 := t[6].isLt
  have hepoch : (unpackTrailer t).epoch.toNat = t[1].toNat := rfl
  rw [hepoch, unpackTrailer_root_toNat, unpackTrailer_tip0_toNat, unpackTrailer_tip1_toNat]
  simp only [memRead, toList_getD, Nat.reduceAdd, Nat.reduceLT, Nat.zero_mul, Nat.zero_add, Nat.add_zero, true_and]
  omega

theorem ofNat_toNat_div {w : Nat} (x : BitVec w) (start : Nat) :
    BitVec.ofNat 8 (x.toNat / 2 ^ start) = x.extractLsb' start 8 := by
  apply BitVec.eq_of_toNat_eq
  rw [extractLsb'_byte_toNat, BitVec.toNat_ofNat]

theorem ofNat_toNat_eq_low_byte {w : Nat} (x : BitVec w) : BitVec.ofNat 8 x.toNat = x.extractLsb' 0 8 := by
  simpa using ofNat_toNat_div x 0

theorem ofNat_toNat_eq_middle_byte {w : Nat} (x : BitVec w) : BitVec.ofNat 8 (x.toNat / 256) = x.extractLsb' 8 8 :=
  ofNat_toNat_div x 8

theorem ofNat_toNat_eq_high_byte {w : Nat} (x : BitVec w) : BitVec.ofNat 8 (x.toNat / 65536) = x.extractLsb' 16 8 :=
  ofNat_toNat_div x 16

/-- The first six `MemWrite`s of `ENC` leave the body of the trailer, and byte 9 as it was. -/
theorem memWrite_body {w : Nat} (c : Config) (epoch root tip0 tip1 : BitVec w) (mac8 : Byte) (old : Trailer) :
    memWrite (memWrite (memWrite (memWrite (memWrite (memWrite old
      0 1 0xCF) 1 1 epoch.toNat) 2 2 root.toNat) 4 3 (packTips tip0 tip1).toNat) 7 1 mac8.toNat) 8 1 c.rsvd8.toNat =
    (packBody c epoch root tip0 tip1 mac8).push old[9] := by
  apply Vector.ext
  intro i hi
  interval_cases i <;>
    simp [-BitVec.ofNat_toNat, memWrite, packBody, Nat.div_div_eq_div_mul, ofNat_toNat_eq_low_byte,
      ofNat_toNat_eq_middle_byte, ofNat_toNat_eq_high_byte, Config.magic]

theorem memWrite_last (body : Vector Byte 9) (b b' : Byte) : memWrite (body.push b) 9 1 b'.toNat = body.push b' := by
  rw [memWrite, memWrite, BitVec.ofNat_toNat, BitVec.setWidth_eq]
  apply Vector.ext
  intro i hi
  obtain rfl | hlt := Nat.eq_or_lt_of_le (Nat.le_of_lt_succ hi)
  · simp
  · simp [Vector.getElem_push_lt hlt, hlt.ne']

/-- Settles O43: the body is written first, so the CRC covers it; the reads are the field lemmas of R86. -/
theorem trailerByMemAccesses : Obligations.TrailerByMemAccesses := by
  refine ⟨fun c w epoch root tip0 tip1 mac8 old _ => ?_, unpackTrailer_eq_memRead⟩
  intro t8
  have ht8 : t8 = (packBody c epoch root tip0 tip1 mac8).push old[9] := memWrite_body ..
  rw [ht8, crcBody_push, memWrite_last, packTrailer]

end Sys2Proof.Machine
end

section
/-! PROOFS. Section 3 of 42_unpack.md and section 1 of 30_encoding.md: which buffers `DEC` accepts, the round trip, what a
changed buffer gives, and the statements O47 to O50 from these. -/

namespace Sys2Proof.Machine

/-! ## The status code `DEC` leaves -/

theorem statusOf_injective : Function.Injective statusOf := by
  have hread : ∀ code, Code.ofBits ((statusOf code).extractLsb' 0 4) = some code := by
    intro code
    cases code <;> decide
  intro a b h
  refine Option.some.inj ?_
  rw [← hread a, h, hread b]

theorem statusOf_eq_zero_iff {code : Code} : statusOf code = 0x00 ↔ code = .ok :=
  statusOf_injective.eq_iff' statusOf_ok

theorem checkTrailer_eq_ok_iff {w : Nat} {len : BitVec w} {t : Trailer} {m : Byte} :
    checkTrailer len t m = .ok ↔ len.toNat = 10 ∧ authenticFor m t.toList = true := by
  rw [authenticFor_toList_iff]
  constructor
  · intro hok
    by_cases hlen : len.toNat = 10
    · by_cases hmagic : t[0] = 0xCF
      · by_cases hcrc : crc8 (crcBody t) = t[9]
        · by_cases hmac : m = t[7]
          · exact ⟨hlen, hmagic, hcrc, hmac.symm⟩
          · cases (checkTrailer_of_mac_ne hlen hmagic hcrc hmac).symm.trans hok
        · cases (checkTrailer_of_crc_ne hlen hmagic hcrc).symm.trans hok
      · cases (checkTrailer_of_magic_ne hlen hmagic).symm.trans hok
    · cases (checkTrailer_of_length_ne hlen).symm.trans hok
  · rintro ⟨hlen, hmagic, hcrc, hmac⟩
    exact checkTrailer_of_passes hlen hmagic hcrc hmac.symm

theorem Tcu.decode_status_eq_zero_iff {w : Nat} {u : Tcu w} :
    u.decode.status = 0x00 ↔ u.tlen.toNat = 10 ∧ authenticFor u.mac8In u.trl.toList = true := by
  rw [Tcu.decode_status, statusOf_eq_zero_iff, checkTrailer_eq_ok_iff]

/-- The first three checks do not see the tag byte. -/
theorem checkTrailer_congr_mac {w : Nat} {len : BitVec w} {t : Trailer} {m : Byte} (m' : Byte)
    (h : checkTrailer len t m ∈ [.errLength, .errMagic, .errCrc]) : checkTrailer len t m' = checkTrailer len t m := by
  by_cases hlen : len.toNat = 10
  · by_cases hmagic : t[0] = 0xCF
    · by_cases hcrc : crc8 (crcBody t) = t[9]
      · have hlate : checkTrailer len t m = .errMac ∨ checkTrailer len t m = .ok := by
          by_cases hmac : m = t[7]
          · exact .inr (checkTrailer_of_passes hlen hmagic hcrc hmac)
          · exact .inl (checkTrailer_of_mac_ne hlen hmagic hcrc hmac)
        obtain hcode | hcode := hlate <;> simp [hcode] at h
      · rw [checkTrailer_of_crc_ne hlen hmagic hcrc, checkTrailer_of_crc_ne hlen hmagic hcrc]
    · rw [checkTrailer_of_magic_ne hlen hmagic, checkTrailer_of_magic_ne hlen hmagic]
  · rw [checkTrailer_of_length_ne hlen, checkTrailer_of_length_ne hlen]

/-- Settles O47: the codes before the last check are those of checks that do not see `MAC8_IN`. -/
theorem earlyErrorsIgnoreMac : Obligations.EarlyErrorsIgnoreMac := by
  intro s m m'
  refine ⟨_, _, exec_dec _, exec_dec _, fun hstatus => ?_⟩
  simp only [State.mapUnit_unit, Tcu.decode_status] at hstatus ⊢
  have hearly : ∀ code, statusOf code ∈ [0x02, 0x03, 0x04] → code ∈ [.errLength, .errMagic, .errCrc] := by
    intro code
    cases code <;> decide
  rw [checkTrailer_congr_mac m' (hearly _ hstatus)]

/-! ## Valid trailers (R55) -/

/-- A list of ten is its first byte, eight more and its last. -/
theorem exists_eq_cons_append_of_length_ten {t : List Byte} (h : t.length = 10) :
    ∃ first middle last, middle.length = 8 ∧ t = first :: middle ++ [last] := by
  obtain ⟨first, tail, rfl⟩ := List.exists_cons_of_length_eq_add_one h
  obtain rfl | ⟨middle, last, rfl⟩ := List.eq_nil_or_concat tail
  · cases h
  · refine ⟨first, middle, last, ?_, by simp⟩
    simpa using h

theorem validTrailer_cons_append_iff {first last : Byte} {middle : List Byte} (h : middle.length = 8) :
    validTrailer (first :: middle ++ [last]) = true ↔ first = 0xCF ∧ crc8 (first :: middle) = last := by
  have hnine : (first :: middle).length = 9 := by rw [List.length_cons, h]
  have hlast : (first :: middle ++ [last]).getD 9 0x00 = last := by
    rw [List.getD_append_right _ _ _ _ hnine.le, hnine]
    rfl
  rw [validTrailer_iff, List.take_left' hnine, hlast, List.length_append, hnine]
  exact and_iff_right rfl

/-- Settles O50: the CRC byte is the CRC of the nine before it, and `DEC` makes the checks of an authentic trailer. -/
theorem validTrailersByBytesOneToEight : Obligations.ValidTrailersByBytesOneToEight := by
  refine ⟨fun middle hmiddle => ?_, fun t ht => ?_, fun s => ⟨_, exec_dec s, ?_⟩⟩
  · simp only [validTrailer_cons_append_iff hmiddle, true_and]
    exact existsUnique_eq'
  · obtain ⟨hlength, -, -⟩ := validTrailer_iff.1 ht
    obtain ⟨first, middle, last, hmiddle, rfl⟩ := exists_eq_cons_append_of_length_ten hlength
    obtain ⟨rfl, -⟩ := (validTrailer_cons_append_iff hmiddle).1 ht
    exact ⟨middle, last, hmiddle, rfl⟩
  · rw [State.mapUnit_unit, Tcu.decode_status_eq_zero_iff, ← BitVec.toNat_inj]
    rfl

/-! ## The round trip (R91) -/

theorem toNat_ten (c : Config) : (10#c.wIn).toNat = 10 := by
  have hwide : 10 < c.wIn := lt_of_lt_of_le (by decide) c.wIn_ok
  exact (BitVec.toNat_ofNat _ _).trans (Nat.mod_eq_of_lt (hwide.trans Nat.lt_two_pow_self))

/-- Unpacking a made trailer gives the numbers it was made of. -/
theorem unpackTrailer_packTrailer {w : Nat} {c : Config} {epoch root tip0 tip1 : BitVec w} {m : Byte}
    (hepoch : epoch.toNat < 256) (hroot : root.toNat < 65536) :
    (unpackTrailer (packTrailer c epoch root tip0 tip1 m)).epoch.toNat = epoch.toNat ∧
    (unpackTrailer (packTrailer c epoch root tip0 tip1 m)).root.toNat = root.toNat ∧
    (unpackTrailer (packTrailer c epoch root tip0 tip1 m)).tip0.toNat = tip0.toNat % 4096 ∧
    (unpackTrailer (packTrailer c epoch root tip0 tip1 m)).tip1.toNat = tip1.toNat % 4096 := by
  have htips := packTrailer_tips_toNat (c := c) (epoch := epoch) (root := root) (tip0 := tip0) (tip1 := tip1) (m := m)
  rw [unpackTrailer_root_toNat, packTrailer_root_toNat hroot, unpackTrailer_tip0_toNat, unpackTrailer_tip1_toNat]
  refine ⟨packTrailer_epoch_toNat hepoch, rfl, ?_⟩
  generalize packTrailer c epoch root tip0 tip1 m = t at htips ⊢
  omega

section RoundTrip

variable {c : Config} {u v : Tcu c.wIn}

/-- The unit holds the trailer, the length and the tag byte that a successful `ENC` on `u` left. -/
def Tcu.HoldsTrailerOf (c : Config) (u v : Tcu c.wIn) : Prop :=
  v.trl = packTrailer c u.epochIn u.rootIn u.tip0In u.tip1In u.mac8In ∧ v.tlen = 10#c.wIn ∧ v.mac8In = u.mac8In

theorem Tcu.holdsTrailerOf_encode (hrange : rangeOk u.epochIn u.rootIn = true) :
    Tcu.HoldsTrailerOf c u (u.encode c) := by
  rw [Tcu.encode_of_rangeOk hrange]
  exact ⟨rfl, rfl, rfl⟩

theorem Tcu.decode_of_holdsTrailerOf (hepoch : u.epochIn.toNat < 256) (hroot : u.rootIn.toNat < 65536)
    (h : Tcu.HoldsTrailerOf c u v) :
    v.decode.status = 0x00 ∧ v.decode.epochOut.toNat = u.epochIn.toNat ∧ v.decode.rootOut.toNat = u.rootIn.toNat ∧
    v.decode.tip0Out.toNat = u.tip0In.toNat % 4096 ∧ v.decode.tip1Out.toNat = u.tip1In.toNat % 4096 := by
  obtain ⟨htrl, htlen, hmac⟩ := h
  have hok : checkTrailer v.tlen v.trl v.mac8In = .ok := by
    rw [checkTrailer_eq_ok_iff, htrl, htlen, hmac]
    exact ⟨toNat_ten c, authenticFor_packTrailer ..⟩
  rw [Tcu.decode_of_ok hok, htrl]
  exact ⟨rfl, unpackTrailer_packTrailer hepoch hroot⟩

theorem Tcu.afterEvent_encWord : u.afterEvent c (.wr 0x00 0x00001000) = u.encode c := by
  have hword : (0x00001000 : Word) = Sys2Proof.encode .enc := by decide
  rw [hword]
  exact Tcu.afterEvent_command

theorem Tcu.afterEvent_decWord : u.afterEvent c (.wr 0x00 0x00002000) = u.decode := by
  have hword : (0x00002000 : Word) = Sys2Proof.encode .dec := by decide
  rw [hword]
  exact Tcu.afterEvent_command

end RoundTrip

/-- Settles O48: the made trailer passes the checks for its own tag byte, and unpacking undoes packing. -/
theorem encThenDecRoundTrip : Obligations.EncThenDecRoundTrip := by
  refine ⟨fun c u v hepoch hroot htrl htlen hmac => ?_, fun s hepoch hroot => ⟨_, runEvents_eq _ s, ?_⟩⟩
  · obtain ⟨htrailer, hten, -⟩ := Tcu.holdsTrailerOf_encode (rangeOk_iff.2 ⟨hepoch, hroot⟩)
    exact Tcu.decode_of_holdsTrailerOf hepoch hroot ⟨htrl.trans htrailer, htlen.trans hten, hmac⟩
  · simp only [Tcu.afterEvents_cons, Tcu.afterEvents_nil, Tcu.afterEvent_encWord, Tcu.afterEvent_decWord]
    exact Tcu.decode_of_holdsTrailerOf hepoch hroot (Tcu.holdsTrailerOf_encode (rangeOk_iff.2 ⟨hepoch, hroot⟩))

/-! ## The CRC of a changed buffer -/

theorem foldl_crc8Update_xor_register (bytes : List Byte) (r s : Byte) :
    bytes.foldl crc8Update (r ^^^ s) = bytes.foldl crc8Update r ^^^ crcShifts (8 * bytes.length) s := by
  induction bytes generalizing r s with
  | nil => rfl
  | cons b bytes ih =>
    have hstep : crc8Update (r ^^^ s) b = crc8Update r b ^^^ crcShifts 8 s := by
      have hswap : r ^^^ s ^^^ b = r ^^^ b ^^^ s := by ac_rfl
      rw [crc8Update, hswap, crcShifts_xor, crc8Update]
    rw [List.foldl_cons, hstep, ih, ← crcShifts_add, List.foldl_cons, List.length_cons, Nat.mul_succ, Nat.add_comm 8]

/-- An error in one byte adds to the CRC the error multiplied by x^8 for that byte and each byte after it. -/
theorem crc8_set_xor (t : Trailer) {i : Nat} (hi : i < 10) (x : Byte) :
    crc8 (t.set i (t[i] ^^^ x)).toList = crc8 t.toList ^^^ crcShifts (8 * (10 - i)) x := by
  have hlen : i < t.toList.length := by rwa [Vector.length_toList]
  have hsplit : t.toList = t.toList.take i ++ t[i] :: t.toList.drop (i + 1) := by
    rw [← Vector.getElem_toList hlen, List.cons_getElem_drop_succ, List.take_append_drop]
  have hset : (t.set i (t[i] ^^^ x)).toList = t.toList.take i ++ (t[i] ^^^ x) :: t.toList.drop (i + 1) := by
    rw [Vector.toList_set, List.set_eq_take_append_cons_drop, if_pos hlen]
  have hrest : 8 * (10 - i) = 8 + 8 * (t.toList.drop (i + 1)).length := by
    rw [List.length_drop, Vector.length_toList]
    omega
  have hbyte (r : Byte) : crc8Update r (t[i] ^^^ x) = crc8Update r t[i] ^^^ crcShifts 8 x := by
    rw [crc8Update, ← BitVec.xor_assoc, crcShifts_xor, crc8Update]
  calc crc8 (t.set i (t[i] ^^^ x)).toList
    _ = (t.toList.drop (i + 1)).foldl crc8Update (crc8Update (crc8 (t.toList.take i)) t[i] ^^^ crcShifts 8 x) := by
      rw [hset, crc8_append_foldl, List.foldl_cons, hbyte]
    _ = crc8 (t.toList.take i ++ t[i] :: t.toList.drop (i + 1)) ^^^ crcShifts (8 * (10 - i)) x := by
      rw [foldl_crc8Update_xor_register, ← crcShifts_add, ← hrest, crc8_append_foldl, List.foldl_cons]
    _ = crc8 t.toList ^^^ crcShifts (8 * (10 - i)) x := by rw [← hsplit]

theorem crc8_toList_eq_zero_iff {t : Trailer} : crc8 t.toList = 0x00 ↔ crc8 (crcBody t) = t[9] := by
  rw [crc8_eq_zero_iff_of_length_ten Vector.length_toList, toList_getD t (by decide)]
  rfl

theorem crcBody_set_nine (t : Trailer) (b : Byte) : crcBody (t.set 9 b) = crcBody t := by
  simp [crcBody_eq]

/-- Being a multiple of G(x), for the difference from a buffer whose CRC is zero. -/
theorem multipleOfG_difference_iff {t t' : Trailer} (h : crc8 t.toList = 0x00) :
    multipleOfG (List.zipWith (· ^^^ ·) t.toList t'.toList) ↔ crc8 t'.toList = 0x00 := by
  rw [multipleOfG_iff_crc8, crc8_xor (Vector.length_toList.trans Vector.length_toList.symm), h]
  exact iff_of_eq (congrArg (· = 0x00) BitVec.zero_xor)

theorem crc8_set_ne_zero {t : Trailer} (h : crc8 t.toList = 0x00) {i : Nat} (hi : i < 10) {b : Byte} (hb : b ≠ t[i]) :
    crc8 (t.set i b).toList ≠ 0x00 := by
  have hxor : b = t[i] ^^^ (t[i] ^^^ b) := by rw [← BitVec.xor_assoc, BitVec.xor_self, BitVec.zero_xor]
  rw [hxor, crc8_set_xor t hi, h]
  intro hzero
  have herror : t[i] ^^^ b = 0x00 := crcShifts_eq_zero_iff.1 (BitVec.zero_xor.symm.trans hzero)
  exact hb (BitVec.xor_eq_zero_iff.1 herror).symm

theorem shiftLeft_one_eq_crcShifts (k : Fin 8) : 1#8 <<< k.val = crcShifts k.val 0x01 := by
  revert k
  decide

theorem crc8_set_set_bits_ne_zero {t : Trailer} (h : crc8 t.toList = 0x00) {i j : Fin 10} (k l : Fin 8) (hij : i ≠ j) :
    crc8 ((t.set i.val (t[i.val] ^^^ 1#8 <<< k.val)).set j.val (t[j.val] ^^^ 1#8 <<< l.val)).toList ≠ 0x00 := by
  have hval : i.val ≠ j.val := Fin.val_ne_of_ne hij
  have hother : t[j.val] = (t.set i.val (t[i.val] ^^^ 1#8 <<< k.val))[j.val] :=
    (Vector.getElem_set_ne _ _ hval).symm
  have hpower {i : Fin 10} {k : Fin 8} : crcShifts (8 * (10 - i.val)) (1#8 <<< k.val) =
      crcShifts 8 (crcShifts (8 * (9 - i.val) + k.val) 0x01) := by
    rw [shiftLeft_one_eq_crcShifts, ← crcShifts_add, ← crcShifts_add]
    congr 1
    omega
  rw [hother, crc8_set_xor _ j.isLt, crc8_set_xor t i.isLt, h, hpower, hpower]
  intro hzero
  have hequal : crcShifts (8 * (9 - i.val) + k.val) 0x01 = crcShifts (8 * (9 - j.val) + l.val) 0x01 := by
    simp only [BitVec.ofNat_eq_ofNat, BitVec.zero_xor] at hzero
    exact crcShifts_injective 8 (BitVec.xor_eq_zero_iff.1 hzero)
  obtain hlt | hgt := Nat.lt_or_gt_of_ne (show 8 * (9 - i.val) + k.val ≠ 8 * (9 - j.val) + l.val by omega)
  · exact crcShifts_one_ne_of_lt hlt (by omega) hequal
  · exact crcShifts_one_ne_of_lt hgt (by omega) hequal.symm

/-! ## What a changed buffer gives (R93) -/

/-- The two tips of a buffer, as its bytes and halves of a byte. -/
theorem unpackTrailer_tips_eq (t : Trailer) :
    (unpackTrailer t).tip0 = t[4] ++ t[5].extractLsb' 4 4 ∧ (unpackTrailer t).tip1 = t[5].extractLsb' 0 4 ++ t[6] := by
  have hhigh : (t[5].extractLsb' 4 4).toNat = t[5].toNat / 16 := by
    have h5 := t[5].isLt
    rw [BitVec.extractLsb'_toNat, Nat.shiftRight_eq_div_pow]
    omega
  have hlow : (t[5].extractLsb' 0 4).toNat = t[5].toNat % 16 := BitVec.extractLsb'_toNat 0 4 _
  constructor <;> apply BitVec.eq_of_toNat_eq
  · rw [unpackTrailer_tip0_toNat, BitVec.toNat_append, ← Nat.shiftLeft_add_eq_or_of_lt (BitVec.isLt _),
      Nat.shiftLeft_eq, hhigh]
  · rw [unpackTrailer_tip1_toNat, append_byte_toNat, hlow]

section Changed

variable {s : State}

/-- `DEC` of a buffer whose four checks pass. -/
theorem exec_dec_of_passes (hcheck : checkTrailer s.unit.tlen s.unit.trl s.unit.mac8In = .ok) :
    exec .dec s = .next { s with unit := { s.unit with
      status := 0x00, epochOut := s.unit.trl[1], rootOut := s.unit.trl[2] ++ s.unit.trl[3],
      tip0Out := s.unit.trl[4] ++ s.unit.trl[5].extractLsb' 4 4,
      tip1Out := s.unit.trl[5].extractLsb' 0 4 ++ s.unit.trl[6] } } := by
  obtain ⟨htip0, htip1⟩ := unpackTrailer_tips_eq s.unit.trl
  rw [exec_dec, State.mapUnit, Tcu.decode_of_ok hcheck, htip0, htip1]
  rfl

end Changed

/-- Settles O49: the difference from an authentic buffer has the CRC of the changed one, so each kind of change fails
the check that sees it, and passes where none does. -/
theorem corruptedTrailerOutcomes : Obligations.CorruptedTrailerOutcomes := by
  intro s htlen hauthentic ends passes
  obtain ⟨hmagic, hbody, hmac⟩ := authenticFor_toList_iff.1 hauthentic
  have hcrc : crc8 s.unit.trl.toList = 0x00 := crc8_toList_eq_zero_iff.2 hbody
  have h10 : s.unit.tlen.toNat = 10 := by rw [htlen]; rfl
  have endsMagic (t' : Trailer) (h0 : t'[0] ≠ s.unit.trl[0]) : ends t' 0x03 :=
    exec_dec_of_fails (s := { s with unit := { s.unit with trl := t' } })
      (checkTrailer_of_magic_ne h10 (hmagic ▸ h0)) (by decide)
  have endsCrc (t' : Trailer) (h0 : t'[0] = s.unit.trl[0]) (hne : crc8 t'.toList ≠ 0x00) : ends t' 0x04 :=
    exec_dec_of_fails (s := { s with unit := { s.unit with trl := t' } })
      (checkTrailer_of_crc_ne h10 (h0.trans hmagic) (mt crc8_toList_eq_zero_iff.2 hne)) (by decide)
  have endsMac (t' : Trailer) (h0 : t'[0] = s.unit.trl[0]) (hzero : crc8 t'.toList = 0x00)
      (h7 : t'[7] ≠ s.unit.trl[7]) : ends t' 0x05 :=
    exec_dec_of_fails (s := { s with unit := { s.unit with trl := t' } })
      (checkTrailer_of_mac_ne h10 (h0.trans hmagic) (crc8_toList_eq_zero_iff.1 hzero) (hmac ▸ h7.symm)) (by decide)
  have endsOk (t' : Trailer) (h0 : t'[0] = s.unit.trl[0]) (hzero : crc8 t'.toList = 0x00)
      (h7 : t'[7] = s.unit.trl[7]) : passes t' :=
    exec_dec_of_passes (s := { s with unit := { s.unit with trl := t' } })
      (checkTrailer_of_passes h10 (h0.trans hmagic) (crc8_toList_eq_zero_iff.1 hzero) (h7.trans hmac).symm)
  refine ⟨fun i b hb => ?oneByte, fun i j k l hi hj hij => ?twoBits, fun m hm => ?tag, fun t' => ?any,
    fun b hb => ?recomputed, ?unseen⟩
  case oneByte =>
    by_cases hi : i.val = 0
    · obtain rfl : i = 0 := Fin.ext hi
      exact endsMagic _ (by simpa using hb)
    · rw [if_neg hi]
      exact endsCrc _ (by simp [hi]) (crc8_set_ne_zero hcrc i.isLt hb)
  case twoBits => exact endsCrc _ (by simp [hi, hj]) (crc8_set_set_bits_ne_zero hcrc k l hij)
  case tag =>
    exact exec_dec_of_fails (s := { s with unit := { s.unit with mac8In := m } })
      (checkTrailer_of_mac_ne h10 hmagic hbody (hmac ▸ hm)) (by decide)
  case any =>
    intro difference
    rw [multipleOfG_difference_iff hcrc]
    exact ⟨endsMagic t', endsCrc t', endsMac t', endsOk t'⟩
  case recomputed =>
    refine endsMac _ (by simp) (crc8_toList_eq_zero_iff.2 ?_) (by simpa using hb)
    rw [crcBody_set_nine, Vector.getElem_set_self]
  case unseen =>
    have hnine : s.unit.trl[9] = (s.unit.trl.set 6 (s.unit.trl[6] ^^^ 0x02))[9] :=
      (Vector.getElem_set_ne _ _ (by decide)).symm
    refine endsOk _ (by simp) ?_ (by simp)
    rw [hnine, crc8_set_xor _ (by decide), crc8_set_xor _ (by decide), hcrc]
    decide +kernel

end Sys2Proof.Machine
end

section
/-! PROOFS. Section 2 of 70_reset_and_hazards.md: after a preparation the registers a command reads hold what the host has
written, and the statements O18 and O19 from this. -/

namespace Sys2Proof.Machine

/-! ## Registers that hold what the host has written -/

section Holds

variable {c : Config} {u v : Tcu c.wIn} {r : Reg}

/-- The register holds the low bits of the latest datum, if there is one. -/
def Tcu.Holds (c : Config) (u : Tcu c.wIn) (r : Reg) (latest : Option Word) : Prop :=
  ∀ d, latest = some d → (u.get r).toNat = d.toNat % 2 ^ r.width c

/-- A record of the latest datum that each event overwrites or leaves, with the register, as it was. -/
theorem Tcu.afterEvents_holds {latest : List (Event c.wIn) → Option Word} (hr : r.access = .readWrite)
    (hnil : latest [] = none)
    (hconcat : ∀ es e d, latest (es ++ [e]) = some d → e = .wr r.number d ∨ (latest es = some d ∧ e.Spares r))
    (u : Tcu c.wIn) (es : List (Event c.wIn)) : Tcu.Holds c (u.afterEvents c es) r (latest es) := by
  induction es using List.reverseRecOn with
  | nil =>
    intro d hd
    cases hnil.symm.trans hd
  | append_singleton es e ih =>
    intro d hd
    rw [Tcu.afterEvents_append, Tcu.afterEvents_cons, Tcu.afterEvents_nil]
    obtain rfl | ⟨hearlier, hspares⟩ := hconcat es e d hd
    · exact Tcu.get_afterEvent_wr hr
    · rw [hspares.get_afterEvent hr]
      exact ih d hearlier

theorem Tcu.afterEvents_holds_latestWrite (hr : r ∈ readSet .enc) (u : Tcu c.wIn) (es : List (Event c.wIn)) :
    Tcu.Holds c (u.afterEvents c es) r (latestWrite r es) :=
  Tcu.afterEvents_holds (readWrite_of_mem_readSet_enc hr) rfl (fun _ _ _ => latestWrite_concat hr) u es

theorem Tcu.afterEvents_holds_latestLoad (hr : r.access = .readWrite) (u : Tcu c.wIn) (es : List (Event c.wIn)) :
    Tcu.Holds c (u.afterEvents c es) r (latestLoad r es) :=
  Tcu.afterEvents_holds hr rfl (fun _ _ _ => latestLoad_concat) u es

theorem Tcu.Holds.get_eq {latest : Option Word} (hu : Tcu.Holds c u r latest) (hv : Tcu.Holds c v r latest)
    (h : latest.isSome = true) : u.get r = v.get r := by
  obtain ⟨d, hd⟩ := Option.isSome_iff_exists.1 h
  exact BitVec.eq_of_toNat_eq ((hu d hd).trans (hv d hd).symm)

end Holds

/-! ## Prepared commands -/

section Prepared

variable {u v : UnitRegs} {es : List HostEvent}

/-- After a preparation of `ENC` any two units agree on its inputs. -/
theorem Tcu.inputs_agree_of_prepared (h : preparedForEnc es = true) :
    ∀ r ∈ readSet .enc, (u.afterEvents Config.tcu es).get r = (v.afterEvents Config.tcu es).get r := by
  intro r hr
  have hwritten : (latestWrite r es).isSome = true := List.all_eq_true.1 h r hr
  exact (u.afterEvents_holds_latestWrite hr es).get_eq (v.afterEvents_holds_latestWrite hr es) hwritten

theorem Tcu.encode_status_eq_zero_iff {c : Config} {u : Tcu c.wIn} :
    (u.encode c).status = 0x00 ↔ rangeOk u.epochIn u.rootIn = true := by
  rw [Tcu.encode_status, statusOf_eq_zero_iff]
  split_ifs with hrange
  · exact iff_of_true rfl hrange
  · exact iff_of_false nofun hrange

theorem Tcu.encode_congr (h : ∀ r ∈ readSet .enc, u.get r = v.get r) :
    (u.encode Config.tcu).status = (v.encode Config.tcu).status ∧ ((u.encode Config.tcu).status = 0x00 →
      (u.encode Config.tcu).trl = (v.encode Config.tcu).trl ∧
      (u.encode Config.tcu).tlen = (v.encode Config.tcu).tlen) := by
  obtain ⟨hepoch, hroot, htip0, htip1, hmac⟩ := Tcu.inputs_eq_of_get h
  refine ⟨Tcu.afterCommand_status_congr (i := .enc) h, fun hok => ?_⟩
  have hrange := Tcu.encode_status_eq_zero_iff.1 hok
  rw [Tcu.encode_of_rangeOk hrange, Tcu.encode_of_rangeOk (by rwa [← hepoch, ← hroot])]
  exact ⟨by rw [hepoch, hroot, htip0, htip1, hmac], rfl⟩

theorem Tcu.decode_outputs_congr (hread : ∀ r ∈ readSet .dec, u.get r = v.get r) (hok : u.decode.status = 0x00) :
    u.decode.epochOut = v.decode.epochOut ∧ u.decode.rootOut = v.decode.rootOut ∧
    u.decode.tip0Out = v.decode.tip0Out ∧ u.decode.tip1Out = v.decode.tip1Out := by
  obtain ⟨htlen, htrl, hmac⟩ := Tcu.candidate_eq_of_get hread
  have hcheck : checkTrailer u.tlen u.trl u.mac8In = .ok := by
    rwa [Tcu.decode_status, statusOf_eq_zero_iff] at hok
  rw [Tcu.decode_of_ok hcheck, Tcu.decode_of_ok (by rwa [← htlen, ← htrl, ← hmac]), htrl]
  exact ⟨rfl, rfl, rfl, rfl⟩

/-- What a preparation of `DEC` has written: the tag byte, a length, and the candidate if it is ten bytes long. -/
theorem preparedForDec_iff : preparedForDec es = true ↔
    (latestWrite .mac8In es).isSome = true ∧
      ∃ n, latestLoad .tlen es = some n ∧ ∀ r ∈ trlRegs.take n.toNat, (latestLoad r es).isSome = true := by
  rw [preparedForDec, Bool.and_eq_true]
  refine and_congr_right fun _ => ?_
  cases latestLoad .tlen es with
  | none => exact iff_of_false nofun nofun
  | some n => simp

/-- `TLEN` holds the declared length. -/
theorem Tcu.tlen_toNat_of_latestLoad {n : Word} (h : latestLoad .tlen es = some n) :
    (u.afterEvents Config.tcu es).tlen.toNat = n.toNat := by
  have hget := u.afterEvents_holds_latestLoad (r := .tlen) rfl es n h
  rw [Tcu.get, zext32_toNat (by decide)] at hget
  exact hget.trans (Nat.mod_eq_of_lt n.isLt)

/-- After a preparation of `DEC` with a length of ten any two units agree on what it reads. -/
theorem Tcu.candidate_agrees_of_prepared {n : Word} (hmac : (latestWrite .mac8In es).isSome = true)
    (hlen : latestLoad .tlen es = some n) (hten : n.toNat = 10)
    (htrl : ∀ r ∈ trlRegs.take n.toNat, (latestLoad r es).isSome = true) :
    ∀ r ∈ readSet .dec, (u.afterEvents Config.tcu es).get r = (v.afterEvents Config.tcu es).get r := by
  have hloaded {r : Reg} (hr : r.access = .readWrite) (h : (latestLoad r es).isSome = true) :
      (u.afterEvents Config.tcu es).get r = (v.afterEvents Config.tcu es).get r :=
    (u.afterEvents_holds_latestLoad hr es).get_eq (v.afterEvents_holds_latestLoad hr es) h
  have hall : trlRegs.take n.toNat = trlRegs := by
    rw [hten]
    rfl
  rw [hall] at htrl
  intro r hr
  obtain rfl | hr | rfl : r = .tlen ∨ r ∈ trlRegs ∨ r = .mac8In := by simpa [readSet] using hr
  · exact hloaded rfl (by rw [hlen]; rfl)
  · have hrw : r.access = .readWrite := by
      obtain ⟨i, -, rfl⟩ := List.mem_map.1 hr
      rfl
    exact hloaded hrw (htrl r hr)
  · have hr : Reg.mac8In ∈ readSet .enc := by decide
    exact (u.afterEvents_holds_latestWrite hr es).get_eq (v.afterEvents_holds_latestWrite hr es) hmac

theorem Tcu.decode_congr_of_prepared (h : preparedForDec es = true) :
    let x := (u.afterEvents Config.tcu es).decode
    let y := (v.afterEvents Config.tcu es).decode
    x.status = y.status ∧ (x.status = 0x00 →
      x.epochOut = y.epochOut ∧ x.rootOut = y.rootOut ∧ x.tip0Out = y.tip0Out ∧ x.tip1Out = y.tip1Out) := by
  intro x y
  obtain ⟨hmac, n, hlen, htrl⟩ := preparedForDec_iff.1 h
  by_cases hten : n.toNat = 10
  · have hread := Tcu.candidate_agrees_of_prepared (u := u) (v := v) hmac hlen hten htrl
    exact ⟨Tcu.afterCommand_status_congr (i := .dec) hread, Tcu.decode_outputs_congr hread⟩
  · have hfails (z : UnitRegs) : (z.afterEvents Config.tcu es).decode.status = 0x02 := by
      have hne : (z.afterEvents Config.tcu es).tlen.toNat ≠ 10 := by rwa [Tcu.tlen_toNat_of_latestLoad hlen]
      rw [Tcu.decode_status, checkTrailer_of_length_ne hne, statusOf_errLength]
    refine ⟨(hfails u).trans (hfails v).symm, fun hok => ?_⟩
    cases (hfails u).symm.trans hok

/-- Of two units with the same inputs, if one makes a trailer, both do, and `DEC` unpacks the same from both. -/
theorem Tcu.decode_encode_congr (hread : ∀ r ∈ readSet .enc, u.get r = v.get r)
    (hok : (u.encode Config.tcu).status = 0x00) :
    let x := (u.encode Config.tcu).decode
    let y := (v.encode Config.tcu).decode
    x.status = 0x00 ∧ y.status = 0x00 ∧
      x.epochOut = y.epochOut ∧ x.rootOut = y.rootOut ∧ x.tip0Out = y.tip0Out ∧ x.tip1Out = y.tip1Out := by
  obtain ⟨hepoch, hroot, htip0, htip1, -⟩ := Tcu.inputs_eq_of_get hread
  have hrange := Tcu.encode_status_eq_zero_iff.1 hok
  have hrange' : rangeOk v.epochIn v.rootIn = true := by rwa [← hepoch, ← hroot]
  obtain ⟨hx, hxe, hxr, hx0, hx1⟩ := Tcu.decode_of_holdsTrailerOf (rangeOk_iff.1 hrange).1 (rangeOk_iff.1 hrange).2
    (Tcu.holdsTrailerOf_encode hrange)
  obtain ⟨hy, hye, hyr, hy0, hy1⟩ := Tcu.decode_of_holdsTrailerOf (rangeOk_iff.1 hrange').1 (rangeOk_iff.1 hrange').2
    (Tcu.holdsTrailerOf_encode hrange')
  exact ⟨hx, hy, BitVec.eq_of_toNat_eq (by rw [hxe, hye, hepoch]), BitVec.eq_of_toNat_eq (by rw [hxr, hyr, hroot]),
    BitVec.eq_of_toNat_eq (by rw [hx0, hy0, htip0]), BitVec.eq_of_toNat_eq (by rw [hx1, hy1, htip1])⟩

end Prepared

/-! ## The statements -/

/-- Settles O18: the five inputs hold what the host has written, and `ENC` reads nothing else. -/
theorem preparedEncIgnoresDraws : Obligations.PreparedEncIgnoresDraws := by
  intro draws draws' es hprepared
  refine ⟨_, _, runEvents_eq _ _, runEvents_eq _ _, ?_⟩
  simp only [Tcu.afterEvents_append, Tcu.afterEvents_cons, Tcu.afterEvents_nil, Tcu.afterEvent_encWord]
  exact Tcu.encode_congr (Tcu.inputs_agree_of_prepared hprepared)

/-- Settles O19: a length other than ten fails the first check; with ten, all that `DEC` reads has been written; and
what a prepared `ENC` made is made of written inputs. -/
theorem preparedDecIgnoresDraws : Obligations.PreparedDecIgnoresDraws := by
  intro draws draws' es
  refine ⟨fun hprepared => ⟨_, _, runEvents_eq _ _, runEvents_eq _ _, ?_⟩, fun hprepared s hrun hok =>
    ⟨_, _, runEvents_eq _ _, runEvents_eq _ _, ?_⟩⟩
  · simp only [Tcu.afterEvents_append, Tcu.afterEvents_cons, Tcu.afterEvents_nil, Tcu.afterEvent_decWord]
    exact Tcu.decode_congr_of_prepared hprepared
  · cases (runEvents_eq _ _).symm.trans hrun
    simp only [Tcu.afterEvents_append, Tcu.afterEvents_cons, Tcu.afterEvents_nil, Tcu.afterEvent_encWord,
      Tcu.afterEvent_decWord] at hok ⊢
    exact Tcu.decode_encode_congr (Tcu.inputs_agree_of_prepared hprepared) hok

end Sys2Proof.Machine
end

section
/-! PROOFS. Decision D4 of 92_eei_decisions.md: units of two widths that hold the same numbers, what each event does to both,
and the statement O45 from this. -/

namespace Sys2Proof.Machine

/-! ## Values of two widths with one number -/

theorem zext32_congr {w w' : Nat} {x : BitVec w} {y : BitVec w'} (h : x.toNat = y.toNat) : zext32 x = zext32 y := by
  apply BitVec.eq_of_toNat_eq
  rw [zext32, zext32, BitVec.toNat_setWidth, BitVec.toNat_setWidth, h]

theorem cut_toNat_of_lt {w : Nat} {d : Word} (h : d.toNat < 2 ^ w) : (cut w d).toNat = d.toNat := by
  rw [cut, BitVec.toNat_setWidth, Nat.mod_eq_of_lt h]

theorem rangeOk_congr {w w' : Nat} {e r : BitVec w} {e' r' : BitVec w'} (he : e.toNat = e'.toNat)
    (hr : r.toNat = r'.toNat) : rangeOk e r = rangeOk e' r' := by
  rw [rangeOk, rangeOk, he, hr]

theorem checkTrailer_congr {w w' : Nat} {len : BitVec w} {len' : BitVec w'} (h : len.toNat = len'.toNat) (t : Trailer)
    (m : Byte) : checkTrailer len t m = checkTrailer len' t m := by
  rw [checkTrailer, checkTrailer, h]

theorem toNat_ofNat_of_lt_min_left {w w' n : Nat} (h : n < 2 ^ min w w') : (BitVec.ofNat w n).toNat = n := by
  rw [BitVec.toNat_ofNat, Nat.mod_eq_of_lt (h.trans_le (Nat.pow_le_pow_right (by decide) (min_le_left w w')))]

theorem toNat_ofNat_of_lt_min_right {w w' n : Nat} (h : n < 2 ^ min w w') : (BitVec.ofNat w' n).toNat = n := by
  rw [min_comm] at h
  exact toNat_ofNat_of_lt_min_left h

/-! ## Units of two widths -/

section Agree

variable {c c' : Config} {u : Tcu c.wIn} {v : Tcu c'.wIn}

theorem Tcu.agrees.setCode {w w' : Nat} {u : Tcu w} {v : Tcu w'} (h : u.agrees v) (code : Code) :
    (u.setCode code).agrees (v.setCode code) := by
  obtain ⟨-, hrest⟩ := h
  exact ⟨rfl, hrest⟩

theorem Tcu.agrees.get {w w' : Nat} {u : Tcu w} {v : Tcu w'} (h : u.agrees v) (r : Reg) : u.get r = v.get r := by
  obtain ⟨hstatus, hcrcr, hmac, hepoch, hroot, htip0, htip1, htlen, hepochO, hrootO, htip0O, htip1O, htrl⟩ := h
  cases r with
  | cmd => rfl
  | epochIn => exact zext32_congr hepoch
  | rootIn => exact zext32_congr hroot
  | tip0In => exact zext32_congr htip0
  | tip1In => exact zext32_congr htip1
  | tlen => exact zext32_congr htlen
  | _ => simp only [Tcu.get, hstatus, hcrcr, hmac, hepochO, hrootO, htip0O, htip1O, htrl]

theorem Tcu.agrees.hostRead {w w' : Nat} {u : Tcu w} {v : Tcu w'} (h : u.agrees v) (n : RegNum) :
    u.hostRead n = v.hostRead n := by
  unfold Tcu.hostRead
  cases Reg.ofNumber n with
  | none => rfl
  | some r => exact h.get r

theorem Tcu.agrees.put {w w' : Nat} {u : Tcu w} {v : Tcu w'} (h : u.agrees v) {r : Reg} {d : Word}
    (hd : r.hasInputWidth = true → d.toNat < 2 ^ w ∧ d.toNat < 2 ^ w') : (u.put r d).agrees (v.put r d) := by
  have hcut (hr : r.hasInputWidth = true) : (cut w d).toNat = (cut w' d).toNat := by
    obtain ⟨hw, hw'⟩ := hd hr
    rw [cut_toNat_of_lt hw, cut_toNat_of_lt hw']
  have hunits := h
  obtain ⟨hstatus, hcrcr, hmac, hepoch, hroot, htip0, htip1, htlen, hepochO, hrootO, htip0O, htip1O, htrl⟩ := hunits
  cases r with
  | epochIn | rootIn | tip0In | tip1In | tlen =>
    simp only [Tcu.agrees, Tcu.put, hcut rfl, hstatus, hcrcr, hmac, hepoch, hroot, htip0, htip1, htlen, hepochO, hrootO,
      htip0O, htip1O, htrl, and_self]
  | mac8In | trl i =>
    simp only [Tcu.agrees, Tcu.put, hstatus, hcrcr, hmac, hepoch, hroot, htip0, htip1, htlen, hepochO, hrootO, htip0O,
      htip1O, htrl, and_self]
  | _ => exact h

theorem Tcu.agrees.hostWrite {w w' : Nat} {u : Tcu w} {v : Tcu w'} (h : u.agrees v) {n : RegNum} {d : Word}
    (hd : (Reg.ofNumber n).any Reg.hasInputWidth = true → d.toNat < 2 ^ w ∧ d.toNat < 2 ^ w') :
    (u.hostWrite n d).agrees (v.hostWrite n d) := by
  unfold Tcu.hostWrite
  cases hr : Reg.ofNumber n with
  | none => exact h
  | some r => exact h.put fun hwidth => hd (by rw [hr]; exact hwidth)

theorem Tcu.agrees.encode (h : u.agrees v) (hrsvd : c.rsvd8 = c'.rsvd8) : (u.encode c).agrees (v.encode c') := by
  have hunits := h
  obtain ⟨hstatus, hcrcr, hmac, hepoch, hroot, htip0, htip1, htlen, houtputs⟩ := hunits
  obtain ⟨hepochO, hrootO, htip0O, htip1O, -⟩ := houtputs
  have hranges : rangeOk u.epochIn u.rootIn = rangeOk v.epochIn v.rootIn := rangeOk_congr hepoch hroot
  cases hrange : rangeOk u.epochIn u.rootIn with
  | true =>
    rw [Tcu.encode_of_rangeOk hrange, Tcu.encode_of_rangeOk (hranges ▸ hrange)]
    refine ⟨rfl, hcrcr, hmac, hepoch, hroot, htip0, htip1, (toNat_ten c).trans (toNat_ten c').symm, hepochO, hrootO,
      htip0O, htip1O, ?_⟩
    rw [hmac]
    exact packTrailer_congr _ hrsvd hepoch hroot (congrArg (· % 4096) htip0) (congrArg (· % 4096) htip1)
  | false =>
    rw [Tcu.encode_of_not_rangeOk hrange, Tcu.encode_of_not_rangeOk (hranges ▸ hrange)]
    exact h.setCode .errRange

theorem Tcu.agrees.decode {w w' : Nat} {u : Tcu w} {v : Tcu w'} (h : u.agrees v) : u.decode.agrees v.decode := by
  have hunits := h
  obtain ⟨-, hcrcr, hmac, hepoch, hroot, htip0, htip1, htlen, -, -, -, -, htrl⟩ := hunits
  have hchecks : checkTrailer u.tlen u.trl u.mac8In = checkTrailer v.tlen v.trl v.mac8In := by
    rw [htrl, hmac, checkTrailer_congr htlen]
  by_cases hcheck : checkTrailer u.tlen u.trl u.mac8In = .ok
  · rw [Tcu.decode_of_ok hcheck, Tcu.decode_of_ok (hchecks ▸ hcheck), htrl]
    exact ⟨rfl, hcrcr, hmac, hepoch, hroot, htip0, htip1, htlen, rfl, rfl, rfl, rfl, rfl⟩
  · rw [Tcu.decode_of_ne_ok hcheck, Tcu.decode_of_ne_ok (hchecks ▸ hcheck), hchecks]
    exact h.setCode _

theorem Tcu.agrees.afterCommand (h : u.agrees v) (hrsvd : c.rsvd8 = c'.rsvd8) (i : Instr) :
    (u.afterCommand c i).agrees (v.afterCommand c' i) := by
  cases i with
  | crcClr =>
    obtain ⟨-, -, hrest⟩ := h
    exact ⟨rfl, rfl, hrest⟩
  | crcUpd b =>
    obtain ⟨-, hcrcr, hrest⟩ := h
    exact ⟨rfl, congrArg (crc8Update · b) hcrcr, hrest⟩
  | enc => exact h.encode hrsvd
  | dec => exact h.decode

theorem Tcu.agrees.afterWord (h : u.agrees v) (hrsvd : c.rsvd8 = c'.rsvd8) (d : Word) :
    (u.afterWord c d).agrees (v.afterWord c' d) := by
  unfold Tcu.afterWord
  cases decodeCmd d with
  | ok i => exact h.afterCommand hrsvd i
  | error e => exact h.setCode .errIllegal

theorem Tcu.agrees.afterEvent (h : u.agrees v) (hrsvd : c.rsvd8 = c'.rsvd8) {e : Event c.wIn} {e' : Event c'.wIn}
    (he : e.agrees e') : (u.afterEvent c e).agrees (v.afterEvent c' e') ∧ u.answers e = v.answers e' := by
  cases e with
  | wr n d =>
    cases e' with
    | wr n' d' =>
      obtain ⟨rfl, rfl, hd⟩ := he
      refine ⟨?_, rfl⟩
      by_cases hn : n' = Reg.cmd.number
      · subst hn
        exact h.afterWord hrsvd d'
      · rw [Tcu.afterEvent_wr hn, Tcu.afterEvent_wr hn]
        exact h.hostWrite hd
    | rd | reset => exact he.elim
  | rd n =>
    cases e' with
    | rd n' =>
      obtain rfl : n' = n := he
      exact ⟨h, congrArg (fun x => [x]) (h.hostRead n')⟩
    | wr | reset => exact he.elim
  | reset draws =>
    cases e' with
    | reset draws' => exact ⟨he, rfl⟩
    | wr | rd => exact he.elim

theorem Tcu.agrees.afterEvents (h : u.agrees v) (hrsvd : c.rsvd8 = c'.rsvd8) {es : List (Event c.wIn)}
    {es' : List (Event c'.wIn)} (hes : List.Forall₂ Event.agrees es es') :
    (u.afterEvents c es).agrees (v.afterEvents c' es') ∧ Tcu.answersAll c es u = Tcu.answersAll c' es' v := by
  induction hes generalizing u v with
  | nil => exact ⟨h, rfl⟩
  | cons he _ ih =>
    obtain ⟨hunits, hanswers⟩ := h.afterEvent hrsvd he
    obtain ⟨hafter, hall⟩ := ih hunits
    exact ⟨hafter, by rw [Tcu.answersAll_cons, Tcu.answersAll_cons, hanswers, hall]⟩

end Agree

/-- `W_IN` is wide enough for a root id that `ENC` refuses. -/
theorem exists_rootIn_refused (c : Config) : ∃ r : BitVec c.wIn, r.toNat = 65536 ∧
    ∀ u : Tcu c.wIn, Tcu.encode c { u with rootIn := r } = { u with rootIn := r, status := 0x01 } := by
  have hroot : (BitVec.ofNat c.wIn 65536).toNat = 65536 := by
    rw [BitVec.toNat_ofNat]
    refine Nat.mod_eq_of_lt (lt_of_lt_of_le ?_ (Nat.pow_le_pow_right (by decide) c.wIn_ok))
    norm_num
  refine ⟨_, hroot, fun u => ?_⟩
  have hrange : rangeOk u.epochIn (BitVec.ofNat c.wIn 65536) = false := rangeOk_eq_false_iff.2 (.inr hroot.ge)
  exact Tcu.encode_of_not_rangeOk (u := { u with rootIn := BitVec.ofNat c.wIn 65536 }) hrange

/-- Settles O45: every operation sees the numbers only, and a presentable datum is stored whole at both widths. -/
theorem inputWidthDoesNotMatter : Obligations.InputWidthDoesNotMatter := by
  refine ⟨fun c c' u v es es' hrsvd h hes => h.afterEvents hrsvd hes, exists_rootIn_refused,
    fun c w w' e r a b n t m he hr ha hb hn => ?_⟩
  have hsame {x : Nat} (hx : x < 2 ^ min w w') : (BitVec.ofNat w x).toNat = (BitVec.ofNat w' x).toNat :=
    (toNat_ofNat_of_lt_min_left hx).trans (toNat_ofNat_of_lt_min_right hx).symm
  exact ⟨rangeOk_congr (hsame he) (hsame hr), packTrailer_congr m rfl (hsame he) (hsame hr)
    (congrArg (· % 4096) (hsame ha)) (congrArg (· % 4096) (hsame hb)), checkTrailer_congr (hsame hn) t m⟩

end Sys2Proof.Machine
end

section
/-! PROOFS. Section 4 of 30_encoding.md: the state after the events of each pseudo-instruction, and the statement O51 from
these. -/

namespace Sys2Proof.Machine

/-! ## Events that return nothing -/

theorem runEvents_of_no_read {es : List HostEvent} (h : ∀ e ∈ es, e.isRead = false) (s : State) :
    runEvents es s = .next { s with unit := s.unit.afterEvents Config.tcu es } := by
  have hnone : Tcu.answersAll Config.tcu es s.unit = [] := by
    rw [← List.length_eq_zero_iff, Tcu.length_answersAll, List.countP_eq_zero]
    intro e he
    rw [h e he]
    decide
  rw [runEvents_eq, hnone, List.append_nil]

theorem isRead_commandEvent_singleton {i : Instr} : ∀ e ∈ [commandEvent i], e.isRead = false := by
  simp [commandEvent, Event.isRead]

theorem Tcu.afterEvent_writeEvent {r : Reg} (hr : r.access = .readWrite) (d : Word) (u : UnitRegs) :
    u.afterEvent Config.tcu (writeEvent r d) = u.put r d := by
  rw [writeEvent, Tcu.afterEvent_wr (Reg.number_ne_zero_of_readWrite hr), Tcu.hostWrite_number]

theorem Tcu.afterEvent_commandEvent (i : Instr) (u : UnitRegs) :
    u.afterEvent Config.tcu (commandEvent i) = u.afterCommand Config.tcu i :=
  Tcu.afterEvent_command

/-! ## `CRC.BYTES` and `CRC.OF` -/

theorem isRead_of_mem_crcBytes {bytes : List Byte} : ∀ e ∈ crcBytes bytes, e.isRead = false := by
  intro e he
  obtain ⟨b, -, rfl⟩ := List.mem_map.1 he
  rfl

theorem Tcu.afterEvents_crcBytes (bytes : List Byte) (u : UnitRegs) :
    u.afterEvents Config.tcu (crcBytes bytes) = { u with
      crcr := bytes.foldl crc8Update u.crcr, status := if bytes = [] then u.status else 0x00 } := by
  induction bytes generalizing u with
  | nil => rfl
  | cons b bytes ih =>
    rw [crcBytes, List.map_cons, Tcu.afterEvents_cons, Tcu.afterEvent_commandEvent, Tcu.afterCommand, Tcu.crcUpd_eq]
    refine (ih _).trans ?_
    rw [if_neg (List.cons_ne_nil b bytes), ite_self, List.foldl_cons]

theorem Tcu.afterEvents_crcOf (bytes : List Byte) (u : UnitRegs) :
    u.afterEvents Config.tcu (crcOf bytes) = { u with crcr := crc8 bytes, status := 0x00 } := by
  rw [crcOf, Tcu.afterEvents_cons, Tcu.afterEvent_commandEvent, Tcu.afterCommand, Tcu.crcClr_eq,
    Tcu.afterEvents_crcBytes, ite_self]
  rfl

theorem runEvents_crcOf (bytes : List Byte) (s : State) :
    runEvents (crcOf bytes) s = .next { s with unit := { s.unit with crcr := crc8 bytes, status := 0x00 } } := by
  have hno : ∀ e ∈ crcOf bytes, e.isRead = false := by
    rw [crcOf, List.forall_mem_cons]
    exact ⟨rfl, isRead_of_mem_crcBytes⟩
  rw [runEvents_of_no_read hno, Tcu.afterEvents_crcOf]

/-! ## `LDTRL` -/

/-- The buffer with bytes written from index `k` on, as many as there is room for. -/
def loadFrom (k : Nat) (bytes : List Byte) (t : Trailer) : Trailer :=
  Vector.ofFn fun i => if k ≤ i.val then bytes.getD (i.val - k) t[i.val] else t[i.val]

theorem getElem_loadFrom (k : Nat) (bytes : List Byte) (t : Trailer) {i : Nat} (hi : i < 10) :
    (loadFrom k bytes t)[i] = if k ≤ i then bytes.getD (i - k) t[i] else t[i] := by
  rw [loadFrom, Vector.getElem_ofFn]

theorem getElem_loadFrom_zero (bytes : List Byte) (t : Trailer) {i : Nat} (hi : i < 10) :
    (loadFrom 0 bytes t)[i] = bytes.getD i t[i] := by
  rw [getElem_loadFrom, if_pos (Nat.zero_le i), Nat.sub_zero]

theorem loadFrom_nil (k : Nat) (t : Trailer) : loadFrom k [] t = t := by
  apply Vector.ext
  intro i hi
  rw [getElem_loadFrom, List.getD_nil, ite_self]

theorem loadFrom_of_full {k : Nat} (hk : 10 ≤ k) (bytes : List Byte) (t : Trailer) : loadFrom k bytes t = t := by
  apply Vector.ext
  intro i hi
  rw [getElem_loadFrom, if_neg (by omega)]

theorem loadFrom_cons {k : Nat} (hk : k < 10) (b : Byte) (bytes : List Byte) (t : Trailer) :
    loadFrom k (b :: bytes) t = loadFrom (k + 1) bytes (t.set k b) := by
  apply Vector.ext
  intro i hi
  rw [getElem_loadFrom, getElem_loadFrom]
  obtain hlt | rfl | hgt := Nat.lt_trichotomy i k
  · rw [if_neg (by omega), if_neg (by omega), Vector.getElem_set_ne _ _ (by omega)]
  · rw [if_pos (le_refl i), if_neg (by omega), Vector.getElem_set_self, Nat.sub_self, List.getD_cons_zero]
  · have hindex : i - k = i - (k + 1) + 1 := by omega
    rw [if_pos hgt.le, if_pos (Nat.succ_le_of_lt hgt), Vector.getElem_set_ne _ _ hgt.ne, hindex, List.getD_cons_succ]

theorem loadFrom_toList {bytes : List Byte} (h : bytes.length = 10) (t : Trailer) :
    (loadFrom 0 bytes t).toList = bytes := by
  apply List.ext_getElem
  · rw [Vector.length_toList, h]
  · intro i hi hi'
    rw [Vector.getElem_toList, getElem_loadFrom_zero _ _ (by omega), List.getD_eq_getElem]

theorem Tcu.afterEvents_loadBytes_drop (k : Nat) (bytes : List Byte) (u : UnitRegs) :
    u.afterEvents Config.tcu
      (List.zipWith (fun i b => writeEvent (.trl i) (zext32 b)) ((List.finRange 10).drop k) bytes) =
      { u with trl := loadFrom k bytes u.trl } := by
  induction bytes generalizing k u with
  | nil => rw [List.zipWith_nil_right, loadFrom_nil]; rfl
  | cons b bytes ih =>
    by_cases hk : k < 10
    · have hdrop : (List.finRange 10).drop k = ⟨k, hk⟩ :: (List.finRange 10).drop (k + 1) := by
        rw [List.drop_eq_getElem_cons (by rwa [List.length_finRange]), List.getElem_finRange]
        rfl
      have hbyte : cut 8 (zext32 b) = b := by simp [cut, zext32]
      rw [hdrop, List.zipWith_cons_cons, Tcu.afterEvents_cons, Tcu.afterEvent_writeEvent rfl, ih, loadFrom_cons hk]
      simp only [Tcu.put, hbyte]
    · rw [List.drop_of_length_le (by rw [List.length_finRange]; omega), List.zipWith_nil_left,
        loadFrom_of_full (by omega)]
      rfl

theorem Tcu.afterEvents_ldtrl (bytes : List Byte) (u : UnitRegs) :
    u.afterEvents Config.tcu (ldtrl bytes) =
      { u with trl := loadFrom 0 bytes u.trl, tlen := BitVec.ofNat 32 bytes.length } := by
  have hload : u.afterEvents Config.tcu (loadBytes bytes) = { u with trl := loadFrom 0 bytes u.trl } :=
    Tcu.afterEvents_loadBytes_drop 0 bytes u
  rw [ldtrl, Tcu.afterEvents_append, hload, Tcu.afterEvents_cons, Tcu.afterEvents_nil, Tcu.afterEvent_writeEvent rfl]
  simp only [Tcu.put, cut, BitVec.setWidth_eq]

theorem isRead_of_mem_ldtrl {bytes : List Byte} : ∀ e ∈ ldtrl bytes, e.isRead = false := by
  intro e he
  rw [ldtrl, List.mem_append, loadBytes] at he
  obtain he | he := he
  · obtain ⟨i, hi, rfl⟩ := List.mem_iff_getElem.1 he
    rw [List.getElem_zipWith]
    rfl
  · rw [List.mem_singleton.1 he]
    rfl

theorem runEvents_ldtrl (bytes : List Byte) (s : State) :
    runEvents (ldtrl bytes) s = .next { s with unit := { s.unit with
      trl := loadFrom 0 bytes s.unit.trl, tlen := BitVec.ofNat 32 bytes.length } } := by
  rw [runEvents_of_no_read isRead_of_mem_ldtrl, Tcu.afterEvents_ldtrl]

/-! ## `SETENC` -/

/-- The unit with the five inputs of `ENC` set. -/
def Tcu.withInputs (e r t0 t1 m : Word) (u : UnitRegs) : UnitRegs :=
  { u with epochIn := e, rootIn := r, tip0In := t0, tip1In := t1, mac8In := m.setWidth 8 }

theorem Tcu.afterEvents_setenc (e r t0 t1 m : Word) (u : UnitRegs) :
    u.afterEvents Config.tcu (setenc e r t0 t1 m) = u.withInputs e r t0 t1 m := by
  simp only [setenc, Tcu.afterEvents_cons, Tcu.afterEvents_nil, Tcu.afterEvent_writeEvent (r := .epochIn) rfl,
    Tcu.afterEvent_writeEvent (r := .rootIn) rfl, Tcu.afterEvent_writeEvent (r := .tip0In) rfl,
    Tcu.afterEvent_writeEvent (r := .tip1In) rfl, Tcu.afterEvent_writeEvent (r := .mac8In) rfl, Tcu.put, cut,
    BitVec.setWidth_eq, Tcu.withInputs]

theorem isRead_of_mem_setenc {e r t0 t1 m : Word} : ∀ x ∈ setenc e r t0 t1 m, x.isRead = false := by
  simp [setenc, writeEvent, Event.isRead]

/-- Settles O51: the state after each pseudo-instruction, and the `RD` that follows `CRC.OF`. -/
theorem pseudoInstructionsExpand : Obligations.PseudoInstructionsExpand := by
  refine ⟨fun bytes s => ?crcOf, fun bytes s => ?crcBytes, fun bytes s => ?ldtrl, fun e r t0 t1 m s => ?setenc⟩
  case crcOf =>
    rw [runEvents_append, runEvents_crcOf]
    exact ⟨_, rfl, rfl, rfl⟩
  case crcBytes => rw [runEvents_of_no_read isRead_of_mem_crcBytes, Tcu.afterEvents_crcBytes]
  case ldtrl => exact ⟨_, runEvents_ldtrl bytes s, fun i => getElem_loadFrom_zero bytes _ i.isLt, rfl⟩
  case setenc =>
    rw [runEvents_of_no_read isRead_of_mem_setenc, Tcu.afterEvents_setenc]
    rfl

end Sys2Proof.Machine
end

section
/-! PROOFS. Section 3 of 41_pack.md and section 3 of 42_unpack.md: the source's `encode` and `decode` on the unit, and the
statements O52 to O55 from these. -/

namespace Sys2Proof.Machine

/-! ## Reading registers back -/

theorem readBack_eq (r : Reg) (s : State) : readBack r s = .next (s.unit.get r, s.note (s.unit.get r)) := by
  rw [readBack, readEvent, transact_rd, andThen_next, Tcu.hostRead_number]

theorem readBackAll_eq (rs : List Reg) (s : State) :
    ∃ s', readBackAll rs s = .next (rs.map fun r => s.unit.get r, s') := by
  induction rs generalizing s with
  | nil => exact ⟨s, rfl⟩
  | cons r rs ih =>
    obtain ⟨s', hs'⟩ := ih (s.note (s.unit.get r))
    refine ⟨s', ?_⟩
    rw [readBackAll, readBack_eq, andThen_next, hs', andThen_next]
    rfl

theorem map_cut_get_trlRegs {w : Nat} (u : Tcu w) : (trlRegs.map fun r => u.get r).map (cut 8) = u.trl.toList := by
  apply List.ext_getElem
  · simp [trlRegs]
  · intro i hi hi'
    simp [trlRegs, Tcu.get, cut, zext32]

/-! ## `encode` (R80) -/

section Encode

variable {mac : Mac} {e r a b : Int} {key message : List Byte} {s : State}

theorem presentable_iff {v : Int} : presentable v = true ↔ 0 ≤ v ∧ v < 2 ^ 32 := by
  simp [presentable]

/-- The unit with the arguments of the source's `encode` as inputs. -/
def encodeInputs (mac : Mac) (e r a b : Int) (key message : List Byte) (u : UnitRegs) : UnitRegs :=
  u.withInputs (BitVec.ofInt 32 e) (BitVec.ofInt 32 r) (BitVec.ofInt 32 a) (BitVec.ofInt 32 b)
    (zext32 (mac key message))

/-- What the wrapper's first transactions do. -/
theorem runEvents_encode (mac : Mac) (e r a b : Int) (key message : List Byte) (s : State) :
    runEvents (setenc (BitVec.ofInt 32 e) (BitVec.ofInt 32 r) (BitVec.ofInt 32 a) (BitVec.ofInt 32 b)
      (zext32 (mac key message)) ++ [commandEvent .enc]) s =
      .next { s with unit := (encodeInputs mac e r a b key message s.unit).encode Config.tcu } := by
  rw [runEvents_append, runEvents_of_no_read isRead_of_mem_setenc, Tcu.afterEvents_setenc, andThen_next,
    runEvents_of_no_read isRead_commandEvent_singleton, Tcu.afterEvents_cons, Tcu.afterEvents_nil,
    Tcu.afterEvent_commandEvent]
  rfl

theorem encodeCall_of_not_presentable (h : ¬(presentable e = true ∧ presentable r = true)) :
    encodeCall mac e r a b key message s = .next (.error .rangeError, s) := by
  rw [encodeCall, if_neg (by rwa [Bool.and_eq_true])]

theorem encodeCall_of_not_rangeOk (he : presentable e = true) (hr : presentable r = true)
    (h : rangeOk (BitVec.ofInt 32 e) (BitVec.ofInt 32 r) = false) :
    ∃ s', encodeCall mac e r a b key message s = .next (.error .rangeError, s') := by
  have hstatus : ((encodeInputs mac e r a b key message s.unit).encode Config.tcu).get .status = 0x00000001 := by
    rw [Tcu.encode_of_not_rangeOk (u := encodeInputs mac e r a b key message s.unit) h]
    rfl
  simp only [encodeCall, he, hr, Bool.and_self, if_true, runEvents_encode, andThen_next, readBack_eq, hstatus]
  exact ⟨_, rfl⟩

theorem encodeCall_of_rangeOk (he : presentable e = true) (hr : presentable r = true)
    (h : rangeOk (BitVec.ofInt 32 e) (BitVec.ofInt 32 r) = true) :
    ∃ s', encodeCall mac e r a b key message s = .next (.ok (packTrailer Config.tcu (BitVec.ofInt 32 e)
      (BitVec.ofInt 32 r) (BitVec.ofInt 32 a) (BitVec.ofInt 32 b) (mac key message)).toList, s') := by
  obtain ⟨hholds, -, -⟩ := Tcu.holdsTrailerOf_encode (c := Config.tcu)
    (u := encodeInputs mac e r a b key message s.unit) h
  have hmac : (encodeInputs mac e r a b key message s.unit).mac8In = mac key message := by
    simp [encodeInputs, Tcu.withInputs, zext32]
  have hstatus : ((encodeInputs mac e r a b key message s.unit).encode Config.tcu).get .status = 0x00000000 := by
    rw [Tcu.encode_of_rangeOk (u := encodeInputs mac e r a b key message s.unit) h]
    rfl
  obtain ⟨s', hs'⟩ := readBackAll_eq trlRegs (State.note 0x00000000
    { s with unit := (encodeInputs mac e r a b key message s.unit).encode Config.tcu })
  refine ⟨s', ?_⟩
  simp only [encodeCall, he, hr, Bool.and_self, if_true, runEvents_encode, andThen_next, readBack_eq, hstatus,
    ne_eq, not_true_eq_false, if_false, hs', State.note_unit, map_cut_get_trlRegs, hholds, hmac]
  rfl

end Encode

section EncodeBytes

/-- An integer that fits is the number of the datum the wrapper makes of it. -/
theorem ofInt_toNat_of_lt {n : Nat} (h : n < 2 ^ 32) : (BitVec.ofInt 32 n).toNat = n := by
  rw [BitVec.ofInt_natCast, BitVec.toNat_ofNat, Nat.mod_eq_of_lt h]

/-- A tip reduced modulo 2^32 keeps its low 12 bits. -/
theorem ofInt_toNat_mod (a : Int) : (BitVec.ofInt 32 a).toNat % 4096 = (a % 4096).toNat := by
  rw [BitVec.toNat_ofInt]
  omega

/-- The bytes of the source's layout, from the numbers of the inputs. -/
theorem packBody_toList_of_toNat {w : Nat} (c : Config) {epoch root tip0 tip1 : BitVec w} (m : Byte) {e r packed : Nat}
    (he : epoch.toNat = e) (hr : root.toNat = r) (hpacked : (packTips tip0 tip1).toNat = packed) :
    (packBody c epoch root tip0 tip1 m).toList =
      [0xCF, BitVec.ofNat 8 e, BitVec.ofNat 8 (r / 256), BitVec.ofNat 8 r, BitVec.ofNat 8 (packed / 65536),
        BitVec.ofNat 8 (packed / 256), BitVec.ofNat 8 packed, m, c.rsvd8] := by
  subst he hr hpacked
  simp only [ofNat_toNat_eq_low_byte, ofNat_toNat_eq_middle_byte, ofNat_toNat_eq_high_byte]
  rfl

end EncodeBytes

/-- Settles O52: an argument that cannot be presented is out of range, and `ENC` checks the rest. -/
theorem encodeWrapperMeetsSource : Obligations.EncodeWrapperMeetsSource := by
  intro mac e r a b key message s
  refine ⟨fun hout => ?_, fun he he' hr hr' => ?_⟩
  · by_cases hpresentable : presentable e = true ∧ presentable r = true
    · obtain ⟨hpe, hpr⟩ := hpresentable
      refine encodeCall_of_not_rangeOk hpe hpr ?_
      obtain ⟨he, he'⟩ := presentable_iff.1 hpe
      obtain ⟨hr, hr'⟩ := presentable_iff.1 hpr
      lift e to Nat using he
      lift r to Nat using hr
      rw [rangeOk_eq_false_iff, ofInt_toNat_of_lt (by omega), ofInt_toNat_of_lt (by omega)]
      omega
    · exact ⟨s, encodeCall_of_not_presentable hpresentable⟩
  · lift e to Nat using he
    lift r to Nat using hr
    intro packed body
    have hrange : rangeOk (BitVec.ofInt 32 e) (BitVec.ofInt 32 r) = true := by
      rw [rangeOk_iff, ofInt_toNat_of_lt (by omega), ofInt_toNat_of_lt (by omega)]
      omega
    obtain ⟨s', hs'⟩ := encodeCall_of_rangeOk (mac := mac) (a := a) (b := b) (key := key) (message := message) (s := s)
      (presentable_iff.2 (by omega)) (presentable_iff.2 (by omega)) hrange
    have hpacked : (packTips (BitVec.ofInt 32 a) (BitVec.ofInt 32 b)).toNat = packed := by
      rw [packTips_toNat, ofInt_toNat_mod, ofInt_toNat_mod]
    have hbody : (packBody Config.tcu (BitVec.ofInt 32 e) (BitVec.ofInt 32 r) (BitVec.ofInt 32 a) (BitVec.ofInt 32 b)
        (mac key message)).toList = body :=
      packBody_toList_of_toNat _ _ (ofInt_toNat_of_lt (by omega)) (ofInt_toNat_of_lt (by omega)) hpacked
    exact ⟨s', by rw [hs', packTrailer_toList, hbody]⟩

/-! ## `decode` (R90) -/

/-- The answer of the wrapper from the registers a `DEC` left. -/
def decodeAnswer (u : UnitRegs) : Except SourceError Decoded :=
  match decodeError (u.get .status) with
  | some e => .error e
  | none =>
    .ok { epochS := u.epochOut.toNat, pRootId := u.rootOut.toNat, tip0 := u.tip0Out.toNat, tip1 := u.tip1Out.toNat }

theorem decodeResult_eq (s : State) : ∃ s', decodeResult s = .next (decodeAnswer s.unit, s') := by
  unfold decodeResult decodeAnswer
  rw [readBack_eq, andThen_next]
  cases decodeError (s.unit.get .status) with
  | some e => exact ⟨_, rfl⟩
  | none =>
    simp only [readBack_eq, andThen_next, State.note_unit, Tcu.get, zext32_toNat (by decide : 8 ≤ 32),
      zext32_toNat (by decide : 12 ≤ 32), zext32_toNat (by decide : 16 ≤ 32)]
    exact ⟨_, rfl⟩

section Decode

variable {u : UnitRegs}

/-- The answer for an outcome of the checks and the fields of the candidate. -/
def answerOf (code : Code) (f : Fields) : Except SourceError Decoded :=
  match decodeError (zext32 (statusOf code)) with
  | some e => .error e
  | none => .ok { epochS := f.epoch.toNat, pRootId := f.root.toNat, tip0 := f.tip0.toNat, tip1 := f.tip1.toNat }

/-- What the wrapper answers after a `DEC` depends on the candidate and the tag byte only. -/
theorem decodeAnswer_decode (u : UnitRegs) :
    decodeAnswer u.decode = answerOf (checkTrailer u.tlen u.trl u.mac8In) (unpackTrailer u.trl) := by
  by_cases hcheck : checkTrailer u.tlen u.trl u.mac8In = .ok
  · rw [Tcu.decode_of_ok hcheck, hcheck]
    rfl
  · have herror : ∀ code ∈ possibleCodes .dec, code ≠ .ok → (decodeError (zext32 (statusOf code))).isSome = true := by
      decide
    obtain ⟨e, he⟩ := Option.isSome_iff_exists.1 (herror _ (checkTrailer_mem_possibleCodes ..) hcheck)
    rw [decodeAnswer, answerOf, Tcu.get, Tcu.decode_status, he]

theorem decodeAnswer_of_fails {code : Code} {e : SourceError} (hcheck : checkTrailer u.tlen u.trl u.mac8In = code)
    (he : decodeError (zext32 (statusOf code)) = some e) : decodeAnswer u.decode = .error e := by
  rw [decodeAnswer_decode, hcheck, answerOf, he]

theorem decodeAnswer_of_passes (hcheck : checkTrailer u.tlen u.trl u.mac8In = .ok) :
    decodeAnswer u.decode = .ok ⟨(unpackTrailer u.trl).epoch.toNat, (unpackTrailer u.trl).root.toNat,
      (unpackTrailer u.trl).tip0.toNat, (unpackTrailer u.trl).tip1.toNat⟩ := by
  rw [decodeAnswer_decode, hcheck]
  rfl

/-- The unit with a candidate loaded and a tag byte given. -/
def Tcu.withCandidate (trailer : List Byte) (m : Byte) (u : UnitRegs) : UnitRegs :=
  { u with trl := loadFrom 0 trailer u.trl, tlen := BitVec.ofNat 32 trailer.length, mac8In := m }

theorem isRead_of_mem_decodeWith {m : Byte} : ∀ e ∈ decodeWith m, e.isRead = false := by
  simp [decodeWith, writeEvent, commandEvent, Event.isRead]

theorem Tcu.afterEvents_decodeWith (m : Byte) (u : UnitRegs) :
    u.afterEvents Config.tcu (decodeWith m) = { u with mac8In := m }.decode := by
  have hbyte : cut 8 (zext32 m) = m := by simp [cut, zext32]
  rw [decodeWith, Tcu.afterEvents_cons, Tcu.afterEvent_writeEvent rfl, Tcu.afterEvents_cons, Tcu.afterEvents_nil,
    Tcu.afterEvent_commandEvent, Tcu.put, hbyte]
  rfl

theorem runEvents_ldtrl_decodeWith (trailer : List Byte) (m : Byte) (s : State) :
    runEvents (ldtrl trailer ++ decodeWith m) s =
      .next { s with unit := (s.unit.withCandidate trailer m).decode } := by
  rw [runEvents_append, runEvents_ldtrl, andThen_next,
    runEvents_of_no_read isRead_of_mem_decodeWith, Tcu.afterEvents_decodeWith]
  rfl

theorem decodeCall_of_short {mac : Mac} {trailer key message : List Byte} {s : State} (h : trailer.length < 2 ^ 32) :
    ∃ s', decodeCall mac trailer key message s =
      .next (decodeAnswer (s.unit.withCandidate trailer (mac key message)).decode, s') := by
  rw [decodeCall, if_neg (Nat.not_le_of_lt h), runEvents_ldtrl_decodeWith, andThen_next]
  exact decodeResult_eq _

theorem decodeCall_of_long {mac : Mac} {trailer key message : List Byte} {s : State} (h : 2 ^ 32 ≤ trailer.length) :
    decodeCall mac trailer key message s = .next (.error (.formatError .wrongLength), s) := by
  rw [decodeCall, if_pos h]

theorem Tcu.withCandidate_tlen_toNat {trailer : List Byte} (h : trailer.length < 2 ^ 32) (m : Byte) (u : UnitRegs) :
    (u.withCandidate trailer m).tlen.toNat = trailer.length :=
  (BitVec.toNat_ofNat _ _).trans (Nat.mod_eq_of_lt h)

theorem getElem_loadFrom_of_length_ten {trailer : List Byte} (h : trailer.length = 10) (t : Trailer) {i : Nat}
    (hi : i < 10) : (loadFrom 0 trailer t)[i] = trailer.getD i 0x00 := by
  rw [← toList_getD _ hi, loadFrom_toList h]

end Decode

theorem unpackTrailer_epoch (t : Trailer) : (unpackTrailer t).epoch = t[1] := rfl

/-- Settles O53: the loaded buffer is the candidate, and `DEC` makes the source's checks in the source's order. -/
theorem decodeWrapperMeetsSource : Obligations.DecodeWrapperMeetsSource := by
  intro mac trailer key message s at_ answers
  have hanswer (hshort : trailer.length < 2 ^ 32) {x : Except SourceError Decoded}
      (hx : decodeAnswer (s.unit.withCandidate trailer (mac key message)).decode = x) : answers x := by
    subst hx
    exact decodeCall_of_short hshort
  have hten (h : trailer.length = 10) : (s.unit.withCandidate trailer (mac key message)).tlen.toNat = 10 :=
    (Tcu.withCandidate_tlen_toNat (by omega) _ _).trans h
  have hbyte (h : trailer.length = 10) {i : Nat} (hi : i < 10) :
      (s.unit.withCandidate trailer (mac key message)).trl[i] = at_ i := getElem_loadFrom_of_length_ten h _ hi
  have hbody (h : trailer.length = 10) :
      crcBody (s.unit.withCandidate trailer (mac key message)).trl = trailer.take 9 :=
    congrArg (List.take 9) (loadFrom_toList h _)
  refine ⟨fun hlen => ?length, fun h h0 => ?magic, fun h h0 hcrc => ?crc, fun h h0 hcrc hmac => ?mac,
    fun h h0 hcrc hmac => ?ok⟩
  case length =>
    obtain hshort | hlong := Nat.lt_or_ge trailer.length (2 ^ 32)
    · refine hanswer hshort (decodeAnswer_of_fails (checkTrailer_of_length_ne ?_) rfl)
      rwa [Tcu.withCandidate_tlen_toNat hshort]
    · exact ⟨s, decodeCall_of_long hlong⟩
  case magic =>
    refine hanswer (by omega) (decodeAnswer_of_fails (checkTrailer_of_magic_ne (hten h) ?_) rfl)
    rwa [hbyte h]
  case crc =>
    refine hanswer (by omega) (decodeAnswer_of_fails (checkTrailer_of_crc_ne (hten h) ?_ ?_) rfl)
    · rwa [hbyte h]
    · rwa [hbody h, hbyte h]
  case mac =>
    refine hanswer (by omega) (decodeAnswer_of_fails (checkTrailer_of_mac_ne (hten h) ?_ ?_ ?_) rfl)
    · rwa [hbyte h]
    · rwa [hbody h, hbyte h]
    · rwa [hbyte h]
  case ok =>
    have hpasses : checkTrailer (s.unit.withCandidate trailer (mac key message)).tlen
        (s.unit.withCandidate trailer (mac key message)).trl (mac key message) = .ok := by
      refine checkTrailer_of_passes (hten h) ?_ ?_ ?_
      · rwa [hbyte h]
      · rwa [hbody h, hbyte h]
      · rwa [hbyte h]
    refine hanswer (by omega) ((decodeAnswer_of_passes hpasses).trans ?_)
    rw [unpackTrailer_root_toNat, unpackTrailer_tip0_toNat, unpackTrailer_tip1_toNat, unpackTrailer_epoch]
    simp only [hbyte h]

/-- An authentic trailer is answered with its fields. -/
theorem decodeCall_of_authentic {mac : Mac} {key message : List Byte} {t : Trailer}
    (h : authenticFor (mac key message) t.toList = true) (s : State) :
    ∃ s', decodeCall mac t.toList key message s = .next (.ok ⟨(unpackTrailer t).epoch.toNat,
      (unpackTrailer t).root.toNat, (unpackTrailer t).tip0.toNat, (unpackTrailer t).tip1.toNat⟩, s') := by
  have hlength : t.toList.length = 10 := Vector.length_toList
  have hloaded : (s.unit.withCandidate t.toList (mac key message)).trl = t :=
    Vector.toList_inj.1 (loadFrom_toList hlength _)
  have hpasses : checkTrailer (s.unit.withCandidate t.toList (mac key message)).tlen
      (s.unit.withCandidate t.toList (mac key message)).trl (mac key message) = .ok := by
    rw [checkTrailer_eq_ok_iff, Tcu.withCandidate_tlen_toNat (by omega), hloaded]
    exact ⟨hlength, h⟩
  obtain ⟨s', hs'⟩ := decodeCall_of_short (mac := mac) (key := key) (message := message) (s := s) (trailer := t.toList)
    (by omega)
  exact ⟨s', by rw [hs', decodeAnswer_of_passes hpasses, hloaded]⟩

/-- Settles O54: `encode` returns the made trailer, which is authentic, and unpacking undoes packing. -/
theorem sourceRoundTrip : Obligations.SourceRoundTrip := by
  intro mac e r a b key message s s' he hr ha hb
  have hnumber {n : Nat} (h : n < 65536) : (BitVec.ofInt 32 n).toNat = n := ofInt_toNat_of_lt (by omega)
  have hpresentable {n : Nat} (h : n < 65536) : presentable n = true := presentable_iff.2 (by omega)
  have hepoch : (BitVec.ofInt 32 e).toNat < 256 := by rwa [hnumber (by omega)]
  have hroot : (BitVec.ofInt 32 r).toNat < 65536 := by rwa [hnumber hr]
  obtain ⟨s1, hs1⟩ := encodeCall_of_rangeOk (mac := mac) (a := a) (b := b) (key := key) (message := message) (s := s)
    (hpresentable (by omega)) (hpresentable hr) (rangeOk_iff.2 ⟨hepoch, hroot⟩)
  obtain ⟨s2, hs2⟩ := decodeCall_of_authentic (mac := mac) (authenticFor_packTrailer Config.tcu (BitVec.ofInt 32 e)
    (BitVec.ofInt 32 r) (BitVec.ofInt 32 a) (BitVec.ofInt 32 b) (mac key message)) s'
  refine ⟨_, s1, s2, hs1, Vector.length_toList, hs2.trans ?_⟩
  obtain ⟨hfe, hfr, hf0, hf1⟩ := unpackTrailer_packTrailer (c := Config.tcu) (tip0 := BitVec.ofInt 32 a)
    (tip1 := BitVec.ofInt 32 b) (m := mac key message) hepoch hroot
  rw [hfe, hfr, hf0, hf1, hnumber (by omega), hnumber hr, hnumber (by omega), hnumber (by omega), Nat.mod_eq_of_lt ha,
    Nat.mod_eq_of_lt hb]

/-! ## `decode` in two passes (R92) -/

section TwoPass

variable {mac : Mac} {trailer key message : List Byte} {s : State}

/-- The codes of the checks that do not see the tag byte. -/
def earlyCodes : List Code := [.errLength, .errMagic, .errCrc]

/-- The outcome of the checks of a candidate with a tag byte. -/
def candidateCode (trailer : List Byte) (m : Byte) (u : UnitRegs) : Code :=
  checkTrailer (u.withCandidate trailer m).tlen (u.withCandidate trailer m).trl m

theorem candidateCode_congr {m : Byte} {u : UnitRegs} (h : candidateCode trailer m u ∈ earlyCodes) (m' : Byte) :
    candidateCode trailer m' u = candidateCode trailer m u :=
  checkTrailer_congr_mac m' h

@[simp] theorem Tcu.decode_tlen {w : Nat} (u : Tcu w) : u.decode.tlen = u.tlen := by
  by_cases hcheck : checkTrailer u.tlen u.trl u.mac8In = .ok
  · rw [Tcu.decode_of_ok hcheck]
  · rw [Tcu.decode_of_ne_ok hcheck, Tcu.setCode_tlen]

@[simp] theorem Tcu.decode_trl {w : Nat} (u : Tcu w) : u.decode.trl = u.trl := by
  by_cases hcheck : checkTrailer u.tlen u.trl u.mac8In = .ok
  · rw [Tcu.decode_of_ok hcheck]
  · rw [Tcu.decode_of_ne_ok hcheck, Tcu.setCode_trl]

/-- The state after the first pass, in which `DEC` runs with whatever tag byte the unit held. -/
def afterFirstPass (trailer : List Byte) (s : State) : State :=
  { s with unit := (s.unit.withCandidate trailer s.unit.mac8In).decode }

theorem runEvents_firstPass (trailer : List Byte) (s : State) :
    runEvents (ldtrl trailer ++ [commandEvent .dec]) s = .next (afterFirstPass trailer s) := by
  rw [runEvents_append, runEvents_ldtrl, andThen_next,
    runEvents_of_no_read isRead_commandEvent_singleton, Tcu.afterEvents_cons, Tcu.afterEvents_nil,
    Tcu.afterEvent_commandEvent]
  rfl

theorem afterFirstPass_status (trailer : List Byte) (s : State) :
    (afterFirstPass trailer s).unit.get .status = zext32 (statusOf (candidateCode trailer s.unit.mac8In s.unit)) :=
  congrArg zext32 (Tcu.decode_status _)

theorem decodeTwoPass_of_long (h : 2 ^ 32 ≤ trailer.length) :
    decodeTwoPass mac trailer key message s = .next (.error (.formatError .wrongLength), s) := by
  rw [decodeTwoPass, if_pos h]

/-- A candidate that fails one of the first three checks is answered after the first pass, whatever the MAC unit. -/
theorem decodeTwoPass_of_early (hshort : trailer.length < 2 ^ 32)
    (hearly : candidateCode trailer s.unit.mac8In s.unit ∈ earlyCodes) :
    ∃ s', ∀ mac, decodeTwoPass mac trailer key message s =
      .next (decodeAnswer (s.unit.withCandidate trailer (mac key message)).decode, s') := by
  have hstatus : ∀ code ∈ earlyCodes, ¬(zext32 (statusOf code) = 0x5 ∨ zext32 (statusOf code) = 0x0) ∧
      (decodeError (zext32 (statusOf code))).isSome = true := by decide
  obtain ⟨hfirst, herror⟩ := hstatus _ hearly
  obtain ⟨e, he⟩ := Option.isSome_iff_exists.1 herror
  refine ⟨(afterFirstPass trailer s).note (zext32 (statusOf (candidateCode trailer s.unit.mac8In s.unit))),
    fun mac => ?_⟩
  have hanswer : decodeAnswer (s.unit.withCandidate trailer (mac key message)).decode = .error e :=
    decodeAnswer_of_fails (candidateCode_congr hearly (mac key message)) he
  rw [hanswer, decodeTwoPass, if_neg (Nat.not_le_of_lt hshort), runEvents_firstPass, andThen_next, readBack_eq,
    andThen_next, afterFirstPass_status, if_neg hfirst, he]

/-- Any other candidate is answered after the second pass. -/
theorem decodeTwoPass_of_late (hshort : trailer.length < 2 ^ 32)
    (hlate : candidateCode trailer s.unit.mac8In s.unit ∉ earlyCodes) :
    ∃ s', decodeTwoPass mac trailer key message s =
      .next (decodeAnswer (s.unit.withCandidate trailer (mac key message)).decode, s') := by
  have hstatus : ∀ code ∈ possibleCodes .dec, code ∉ earlyCodes →
      zext32 (statusOf code) = 0x5 ∨ zext32 (statusOf code) = 0x0 := by decide
  have hfirst : zext32 (statusOf (candidateCode trailer s.unit.mac8In s.unit)) = 0x5 ∨
      zext32 (statusOf (candidateCode trailer s.unit.mac8In s.unit)) = 0x0 :=
    hstatus _ (checkTrailer_mem_possibleCodes ..) hlate
  have hsecond : decodeAnswer { (afterFirstPass trailer s).unit with mac8In := mac key message }.decode =
      decodeAnswer (s.unit.withCandidate trailer (mac key message)).decode := by
    simp only [decodeAnswer_decode, afterFirstPass, Tcu.decode_tlen, Tcu.decode_trl]
    rfl
  rw [← hsecond, decodeTwoPass, if_neg (Nat.not_le_of_lt hshort), runEvents_firstPass, andThen_next, readBack_eq,
    andThen_next, afterFirstPass_status, if_pos hfirst,
    runEvents_of_no_read isRead_of_mem_decodeWith, andThen_next, Tcu.afterEvents_decodeWith]
  exact decodeResult_eq _

/-- A candidate that passes the first three checks is answered neither with a format nor with an integrity error. -/
theorem decodeAnswer_of_late {m : Byte} {u : UnitRegs} (hlate : candidateCode trailer m u ∉ earlyCodes) :
    (∀ why, decodeAnswer (u.withCandidate trailer m).decode ≠ .error (.formatError why)) ∧
    decodeAnswer (u.withCandidate trailer m).decode ≠ .error .integrityError := by
  have hcodes : ∀ code ∈ possibleCodes .dec, code ∉ earlyCodes → code = .ok ∨ code = .errMac := by decide
  obtain hok | hmac := hcodes _ (checkTrailer_mem_possibleCodes ..) hlate
  · rw [decodeAnswer_of_passes hok]
    exact ⟨nofun, nofun⟩
  · rw [decodeAnswer_of_fails (e := .authenticationError) hmac rfl]
    exact ⟨nofun, nofun⟩

end TwoPass

/-- Settles O55: the first pass answers for the checks that do not see the tag byte, the second makes all of them. -/
theorem twoPassDecodeAgrees : Obligations.TwoPassDecodeAgrees := by
  intro mac mac' trailer key message s
  obtain hshort | hlong := Nat.lt_or_ge trailer.length (2 ^ 32)
  · obtain ⟨s1, hs1⟩ := decodeCall_of_short (mac := mac) (key := key) (message := message) (s := s) hshort
    by_cases hearly : candidateCode trailer s.unit.mac8In s.unit ∈ earlyCodes
    · obtain ⟨s2, hs2⟩ := decodeTwoPass_of_early (key := key) (message := message) hshort hearly
      have hsame : decodeAnswer (s.unit.withCandidate trailer (mac' key message)).decode =
          decodeAnswer (s.unit.withCandidate trailer (mac key message)).decode := by
        rw [decodeAnswer_decode, decodeAnswer_decode]
        exact congrArg (answerOf · _) ((candidateCode_congr hearly _).trans (candidateCode_congr hearly _).symm)
      exact ⟨_, _, s1, s2, s2, hs1, hs2 mac, hs2 mac', fun _ => ⟨hsame, rfl⟩⟩
    · obtain ⟨s2, hs2⟩ := decodeTwoPass_of_late (mac := mac) (key := key) (message := message) hshort hearly
      obtain ⟨s3, hs3⟩ := decodeTwoPass_of_late (mac := mac') (key := key) (message := message) hshort hearly
      have hlate : candidateCode trailer (mac key message) s.unit ∉ earlyCodes :=
        fun h => hearly (by rwa [candidateCode_congr h])
      obtain ⟨hformat, hintegrity⟩ := decodeAnswer_of_late hlate
      refine ⟨_, _, s1, s2, s3, hs1, hs2, hs3, ?_⟩
      rintro (⟨why, hwhy⟩ | hwhy)
      · exact absurd hwhy (hformat why)
      · exact absurd hwhy hintegrity
  · exact ⟨_, _, s, s, s, decodeCall_of_long hlong, decodeTwoPass_of_long hlong, decodeTwoPass_of_long hlong,
      fun _ => ⟨rfl, rfl⟩⟩

end Sys2Proof.Machine
end
